-- ==== Sys2Proof/Word.lean ====
section
/-! DEFINITION. The word types of the block: bytes, the 16-bit CRC register, the 32-bit time values and
arguments, the 34-bit command word, and the byte buffer. -/

namespace Sys2Proof

/-- A byte: an unsigned 8-bit value (00_scope.md 5.1). -/
abbrev Byte := BitVec 8

/-- A value of the CRC register, `CRC_W` = 16 bits (R7, R21). -/
abbrev CrcWord := BitVec 16

/-- A clock sample or a timeout in milliseconds, `CLK_W` = `TIMEOUT_W` = 32 bits (R8, R62, R164). -/
abbrev Ms := BitVec 32

/-- The field `ARG` of a command word (R80). -/
abbrev Arg := BitVec 32

/-- The command word `CMD`, `OP` in bits 33:32 and `ARG` in bits 31:0 (R80). -/
abbrev CmdWord := BitVec 34

/-- A byte buffer: the bytes at indices 0 up to its length, index 0 first (R50). -/
abbrev Buffer := List Byte

end Sys2Proof
end

