-- ==== Sys2Proof/Config.lean ====
section
/-! DEFINITION. The open parameters of the block and of its host (00_scope.md R8) and the values nothing
constrains. -/

namespace Sys2Proof

/-- `TIMEOUT_CMP` (R8, 92_eei_decisions.md D15): `gt` times out when elapsed > `TIMEOUT`, `ge` when
elapsed >= `TIMEOUT`. The spec decides `gt` and lets a model carry the other value. -/
inductive TimeoutCmp
  | gt
  | ge
deriving DecidableEq, Repr

/-- The parameters of R8 that the block's rules read. They are arguments of the model; they stand in
State because `exec` and `step` take nothing else, and no step changes them (log 7). -/
structure Params where
  /-- `BACKOFF_MS`: the fixed backoff, a positive number of milliseconds (R155, D17). -/
  backoffMs : Nat
  /-- `LINE_CAP`: capacity of the line accumulator, `none` when unbounded (R165, D18). -/
  lineCap : Option Nat
  /-- `IBUF_CAP`: capacity of the operand buffer, `none` when unbounded (R51, D4). -/
  ibufCap : Option Nat
  /-- `TIMEOUT_CMP` (D15). -/
  timeoutCmp : TimeoutCmp
deriving DecidableEq, Repr

/-- The host-level parameters of R8, arguments of the host's cycle (R92, R219). -/
structure HostParams where
  /-- `STATUS_MNEMONIC`, the mnemonic of the status query (D28). -/
  statusMnemonic : List Byte
  /-- `T_MODE_MS`, the timeout of the mode query (D27). -/
  tMode : Arg
  /-- `T_STATUS_MS`, the timeout of the status query (D27). -/
  tStatus : Arg
deriving DecidableEq, Repr

/-- `T_STATUS_MS > T_MODE_MS`, the one thing the source fixes of the two (R8, D27). -/
def HostParams.legal (p : HostParams) : Bool := decide (p.tMode.toNat < p.tStatus.toNat)

/-- A run of bus addresses, from `base` on. -/
structure Window where
  base : Nat
  size : Nat
deriving DecidableEq, Repr

/-- `BUS_MAP`: the bus addresses of the interface registers and buffer windows, if the block is put on a
bus (R8, R26, R63, D3). -/
structure BusMap where
  cmd : Nat
  status : Nat
  crc : Nat
  frameLen : Nat
  lineLen : Nat
  ibuf : Window
  fbuf : Window
  lbuf : Window
deriving DecidableEq, Repr

/-- FREE VALUE (log 6): the bytes that arrive at the `n`-th environment move no script gives (R60, R61:
nothing bounds how many bytes arrive or when). -/
opaque Config.freeArrivals : Nat → List Byte

/-- FREE VALUE (log 6): the milliseconds by which the clock advances at the `n`-th environment move no
script gives (R62: nothing says how far the clock advances between two reads). -/
opaque Config.freeTicks : Nat → Nat

/-- FREE VALUE (log 28): bit 2 of `STATUS` at the host's `n`-th read, while `SUCCESS` has no value
(R26, R30). -/
opaque Config.freeSuccessRead : Nat → Bool

/-- FREE VALUE (log 31): what the host's `n`-th read hands back when it reads `CRC` while the operation
that makes it runs (R26 gives such a read no valid value). -/
opaque Config.freeCrcRead : Nat → CrcWord

/-- FREE VALUE (log 31): the same for `FRAME_LEN`, a register of 11 bits (R26). -/
opaque Config.freeFrameLenRead : Nat → BitVec 11

/-- FREE VALUE (log 31): the same for `LINE_LEN`. -/
opaque Config.freeLineLenRead : Nat → Nat

/-- FREE VALUE (log 31): the same for a byte of `FBUF` or `LBUF`. -/
opaque Config.freeByteRead : Nat → Byte

/-- FREE VALUE (log 32): what a host's `T.write(FBUF[0..FRAME_LEN))` hands on while BUILD runs, when the
host has `n` moves still to come (R26 gives `FBUF` and `FRAME_LEN` no valid value then). -/
opaque Config.freeFrameSent : Nat → List Byte

/-- FREE VALUE (log 7): one less than the implementation's `BACKOFF_MS`, whose value the source does not
give (R155). -/
opaque Config.backoffLessOne : Nat

/-- The parameters the reset state carries: `BACKOFF_MS` some positive constant nothing is known of,
both capacities unbounded and `TIMEOUT_CMP` = `gt`, the defaults of R8. -/
def Params.default : Params :=
  { backoffMs := Config.backoffLessOne + 1, lineCap := none, ibufCap := none, timeoutCmp := .gt }

end Sys2Proof
end

