-- ==== Sys2Proof/Syntax.lean ====
section
/-! DEFINITION. The commands of the block, one constructor per row of spec/opcode_table.json (R81). -/

namespace Sys2Proof

/-- A command: one of the four values of `OP` with its `ARG` (R81, R82). -/
inductive Instr
  /-- `IDLE` (R94): `ARG` is ignored. -/
  | idle (arg : Arg)
  /-- `CRC16` (R110): `n` bytes of `IBUF` form the data span. -/
  | crc16 (n : Arg)
  /-- `BUILD` (R130): `len` bytes of `IBUF` form the mnemonic. -/
  | build (len : Arg)
  /-- `READLINE` (R150): the timeout in milliseconds. -/
  | readline (timeoutMs : Arg)
deriving DecidableEq, Repr

end Sys2Proof
end

