-- ==== Sys2Proof/WellFormed.lean ====
section
/-! DEFINITION. Which commands are legal by their word alone (R82, R83). -/

namespace Sys2Proof

/-- `L_MAX` = 996 (R7): the longest mnemonic with defined behaviour. -/
def maxMnemonic : Nat := 996

/-- A command is well formed when its `ARG` is a legal value for its `OP`: every value is legal for
`IDLE`, `CRC16` and `READLINE`, and 0 to 996 for `BUILD` (R82, R83). -/
def Instr.wf : Instr → Bool
  | .idle _ => true
  | .crc16 _ => true
  | .build len => decide (len.toNat ≤ maxMnemonic)
  | .readline _ => true

end Sys2Proof
end

