-- ==== Sys2Proof/Decode.lean ====
section
/-! DEFINITION. Decoding of command words (R80, R81, R82) and, after it, the encoder. -/

namespace Sys2Proof

/-- Why bytes are not a command word. -/
inductive DecodeRefusal
  /-- The bytes are not the five that hold a 34-bit word (log 2). -/
  | wrongLength (n : Nat)
  /-- One of the six bits above bit 33 is set: the command word has 34 bits (R80). -/
  | bitsAboveWord
deriving DecidableEq, Repr

/-- The field `OP`, bits 33:32 (R80). -/
def opField (w : CmdWord) : BitVec 2 := w.extractLsb' 32 2

/-- The field `ARG`, bits 31:0, an unsigned number never extended or scaled (R80, R82). -/
def argField (w : CmdWord) : Arg := w.extractLsb' 0 32

/-- The operation map of R81. All four values of `OP` are defined (R83). -/
def decodeWord (w : CmdWord) : Instr :=
  if opField w = 0b00#2 then .idle (argField w)
  else if opField w = 0b01#2 then .crc16 (argField w)
  else if opField w = 0b10#2 then .build (argField w)
  else .readline (argField w)

/-- The number whose bytes, least significant first, are `bs` (log 2). -/
def numberOfBytes : List Byte → Nat
  | [] => 0
  | b :: bs => b.toNat + 256 * numberOfBytes bs

/-- The first `k` bytes of a number, least significant first (log 2). -/
def bytesOfNumber : Nat → Nat → List Byte
  | 0, _ => []
  | k + 1, n => BitVec.ofNat 8 n :: bytesOfNumber k (n / 256)

/-- How many bytes hold a command word. -/
def commandBytes : Nat := 5

/-- The decoder on bytes: total, and refusing by name what is no command word (log 2). -/
def decodeBytes (bs : List Byte) : Except DecodeRefusal Instr :=
  if bs.length = commandBytes then
    if numberOfBytes bs < 2 ^ 34 then .ok (decodeWord (BitVec.ofNat 34 (numberOfBytes bs)))
    else .error .bitsAboveWord
  else .error (.wrongLength bs.length)

/-- The instruction the decoder reads from the `nbits`-bit word `w` of spec/opcode_table.json. -/
def decodeTableWord (nbits w : Nat) : Option Instr :=
  match decodeBytes (bytesOfNumber commandBytes (w % 2 ^ nbits)) with
  | .ok i => some i
  | .error _ => none

/-! ## The encoder -/

/-- The value of `OP` for a command (R81). -/
def Instr.op : Instr → BitVec 2
  | .idle _ => 0b00#2
  | .crc16 _ => 0b01#2
  | .build _ => 0b10#2
  | .readline _ => 0b11#2

/-- The value of `ARG` for a command (R82). -/
def Instr.arg : Instr → Arg
  | .idle a => a
  | .crc16 a => a
  | .build a => a
  | .readline a => a

/-- The command word of a command: `OP` above `ARG` (R80). -/
def encode (i : Instr) : CmdWord := i.op ++ i.arg

/-- The command word as the five bytes the decoder reads. -/
def encodeBytes (i : Instr) : List Byte := bytesOfNumber commandBytes (encode i).toNat

/-! ## The opcode table as match and mask (R81) -/

/-- One row of the operation map as match and mask. -/
structure OpcodeRow where
  mnemonic : String
  mask : CmdWord
  bits : CmdWord
deriving DecidableEq, Repr

/-- The mask and the four matches of R81. -/
def opcodeTable : List OpcodeRow :=
  [ { mnemonic := "IDLE", mask := 0x300000000#34, bits := 0x000000000#34 },
    { mnemonic := "CRC16", mask := 0x300000000#34, bits := 0x100000000#34 },
    { mnemonic := "BUILD", mask := 0x300000000#34, bits := 0x200000000#34 },
    { mnemonic := "READLINE", mask := 0x300000000#34, bits := 0x300000000#34 } ]

/-- A word falls under a row when its masked bits are the row's match. -/
def OpcodeRow.covers (r : OpcodeRow) (w : CmdWord) : Bool := w &&& r.mask == r.bits

/-- The mnemonic of a command (R81). -/
def Instr.mnemonic : Instr → String
  | .idle _ => "IDLE"
  | .crc16 _ => "CRC16"
  | .build _ => "BUILD"
  | .readline _ => "READLINE"

end Sys2Proof
end

