-- ==== Sys2Proof/Machine/State.lean ====
section
/-! DEFINITION. The state of the block (10_state.md), of what it observes outside itself and of the
host, as plain data; the reasons a step stops; and the state after reset. -/

namespace Sys2Proof.Machine

/-! ## Phases (R24) -/

/-- The phases of the CRC Engine (R24, R116). -/
inductive CrcPhase
  | idle | load | shift | done
deriving DecidableEq, Repr

/-- The phases of the Frame Builder (R24, R140). -/
inductive FbPhase
  | idle | lenCalc | mark0 | mark1 | dig2 | dig1 | dig0 | mnem | crcRun | crcHi | crcLo | term | done
deriving DecidableEq, Repr

/-- The phases of the Line Reader (R24, R157). -/
inductive LrPhase
  | idle | start | check | poll | recv | backoff | done
deriving DecidableEq, Repr

/-! ## Registers of the units -/

/-- The registers of the CRC Engine (R21). -/
structure CrcRegs where
  /-- `PHASE_CRC`. -/
  phase : CrcPhase
  /-- `CRC`: the running remainder, then the result. -/
  crc : CrcWord
  /-- `CRC_IDX`: index of the next byte of the span. -/
  idx : Nat
  /-- `CRC_BITCNT`: shift steps done for the current byte, 0 to 8. -/
  bitcnt : Nat
deriving DecidableEq, Repr

/-- The registers of the Frame Builder (R22). `FRAME_LEN` is the length of `fbuf`. -/
structure FbRegs where
  /-- `PHASE_FB`. -/
  phase : FbPhase
  /-- `LEN`: the value of the length field, `L + 3`. -/
  len : Nat
  /-- `FB_IDX`: index of the next mnemonic byte to copy. -/
  idx : Nat
  /-- `FBUF`: the Frame under construction, then the finished Frame. -/
  fbuf : Buffer
deriving DecidableEq, Repr

/-- The registers of the Line Reader (R23). `LINE_LEN` is the length of `lbuf`. -/
structure LrRegs where
  /-- `PHASE_LR`. -/
  phase : LrPhase
  /-- `LBUF`: the Raw Line. -/
  lbuf : Buffer
  /-- `TIMEOUT`: the latched argument. -/
  timeout : Ms
  /-- `T_START`: the clock when the operation began. -/
  tStart : Ms
  /-- `T_BK`: the clock when the current backoff began. -/
  tBk : Ms
  /-- `SUCCESS` (R25). -/
  success : Bool
deriving DecidableEq, Repr

/-- The interface registers (R26), the operand buffer, the latched operand and the records of which
results have been written since reset (R30). -/
structure IoRegs where
  /-- `CMD`: a command word written and not yet accepted; `none` is "no operation pending" (R26). -/
  cmd : Option CmdWord
  /-- `STATUS.BUSY`. -/
  busy : Bool
  /-- `STATUS.DONE`. -/
  done : Bool
  /-- `IBUF`: the bytes the host wrote, as (index, byte) pairs with indices rising; an index it does not
  list holds no value (R30, R50, R51; log 27). -/
  ibuf : List Host.Cell
  /-- The indices of the bytes of `IBUF` the host wrote since the last command, rising (R83, log 10). -/
  ibufWritten : List Nat
  /-- The operand of the running operation, latched at its start (R29). -/
  arg : Arg
  /-- An operation that writes `CRC` has begun since reset (R30, U6; log 8). -/
  crcWritten : Bool
  /-- An operation that writes `SUCCESS` has begun since reset (R30, U6; log 8). -/
  successWritten : Bool
deriving DecidableEq, Repr

/-! ## Outside the block -/

/-- One move of the environment: bytes arrive at the tail of the receive stream and the clock advances
(R28, R61, R62). -/
structure EnvMove where
  arrivals : List Byte
  ticks : Nat
deriving DecidableEq, Repr

/-- The transport and the clock (R28), and the environment's moves still to come (log 5, log 6). -/
structure World where
  /-- `RXQ`: bytes arrived and not yet read, oldest first (R61). -/
  rxq : List Byte
  /-- Bytes handed to the link by `T.write`, first byte first (R50, R59). -/
  txq : List Byte
  /-- Milliseconds since start; `Clock.now` shows it modulo 2^32 (R62). -/
  clock : Nat
  /-- The scripted moves still to come. -/
  env : List EnvMove
  /-- How many unscripted moves have been drawn (log 6). -/
  envDraws : Nat
deriving DecidableEq, Repr

/-- What a host may name in a read or write of the interface (R26). `STATUS` is read whole or by
field. -/
inductive HostReg
  | cmd | status | busy | done | success | crc | frameLen | lineLen
  | ibuf (i : Nat) | fbuf (i : Nat) | lbuf (i : Nat)
deriving DecidableEq, Repr

/-- What a host can only read, and may name in a write (R26). -/
inductive ReadOnlyReg
  | status | crc | frameLen | lineLen
  | fbuf (i : Nat) | lbuf (i : Nat)
deriving DecidableEq, Repr

/-- The actions of the host (R218, R59, R230, R242). -/
inductive HostAction
  /-- Write bytes of the `IBUF` window, the first at index `i` and the others behind it (R26, R50). -/
  | writeIbuf (i : Nat) (bs : List Byte)
  /-- Write `CMD` (R26). -/
  | writeCmd (w : CmdWord)
  /-- Read an interface register or one byte of a window (R26). -/
  | readReg (r : HostReg)
  /-- Write a read-only register or buffer byte (R26). -/
  | writeReg (r : ReadOnlyReg)
  /-- `T.write(bs)` (R59). -/
  | transmit (bs : List Byte)
  /-- `T.write(FBUF[0..FRAME_LEN))` (R59, R92). -/
  | transmitFrame
  /-- `T.avail()` by the host (R58, R242). -/
  | pollAvail
  /-- `T.read()` by the host, draining the transport (R242). -/
  | takeByte
  /-- Apply the block's reset (R230). -/
  | reset
deriving DecidableEq, Repr

/-- When the host makes its next move. -/
inductive HostWait
  /-- Once `BUSY` = 0: the host is blocked for the whole operation (R64, R218). -/
  | whenIdle
  /-- After `k` more steps of the block, whatever `BUSY` is. -/
  | after (k : Nat)
deriving DecidableEq, Repr

/-- A move of the host. -/
structure HostMove where
  wait : HostWait
  act : HostAction
deriving DecidableEq, Repr

/-- The host: its moves still to come, in order, and the values its reads have returned, oldest first
(log 4). -/
structure HostSide where
  queue : List HostMove
  got : List Nat
deriving DecidableEq, Repr

/-! ## The whole state -/

/-- The state of the block, of the transport and clock it observes, and of the host. -/
structure State where
  io : IoRegs
  ce : CrcRegs
  fb : FbRegs
  lr : LrRegs
  world : World
  host : HostSide
  params : Params
deriving DecidableEq, Repr

/-! ## Reasons to stop -/

/-- Stuck states: no row of a phase table applies. The block itself raises no fault (R200), and no
state that meets the invariant `Sys2Proof.MachineInv` has one (log 18). -/
inductive Fault
  /-- `BUSY` = 1 with every unit in `IDLE`, or the CRC Engine entered with no operation that runs it.
  Raised by the sequencer and the CRC Engine. Safe: the model stops. -/
  | noActiveUnit
  /-- An indexed read of a buffer at an index that holds no byte; R172 says it never happens. Raised by
  the CRC Engine and the Frame Builder. Safe: the model stops. -/
  | indexOutOfRange
deriving DecidableEq, Repr

/-- The commands and host moves to which no meaning is given (R203, and the model's own). -/
inductive Refusal
  /-- A command whose meaning is not written. Raised by no arm of this model. Safe. -/
  | notModelled (mnemonic : String)
  /-- `LenOverflow`: BUILD with `L > 996` (R83, R132). Raised by BUILD. Safe: the model stops. -/
  | lenOverflow
  /-- `OperandMissing`: `ARG` names bytes of `IBUF` the host has not written, or exceeds `IBUF_CAP`
  (R83). Raised by CRC16 and BUILD. Safe: the model stops. -/
  | operandMissing
  /-- `Busy`: a command other than IDLE while `BUSY` = 1 (R83). Raised by CRC16, BUILD and READLINE.
  Safe: the model stops. -/
  | busy
  /-- `LineCapExceeded`: a byte is available and the accumulator is full (R165). Raised by the Line
  Reader. Safe: the model stops. -/
  | lineCapExceeded
  /-- `UnwrittenRead`: the host reads `CRC` or `SUCCESS` before the first operation that writes it since
  reset, or a byte of `FBUF` or `LBUF` at or above its length (R30, R203, U6). Raised by a host read.
  Safe: the model stops. -/
  | unwrittenRead
  /-- `T.read()` with nothing waiting (93_implementation_defined.md U7). Raised by the Line Reader, in
  no state that meets the invariant, and by a host that drains the transport. Safe: the model stops. -/
  | nothingWaiting
  /-- A host read of the write-only `CMD` or `IBUF` (R26, log 14). Raised by a host read. Safe. -/
  | writeOnly
  /-- A host write of a read-only register (R26, log 14). Raised by a host write. Safe. -/
  | readOnly
  /-- A host write of `IBUF` while `BUSY` = 1, which the interface forbids (R26, R66, R218), or a host
  call of `T.avail` or `T.read` while READLINE runs, which R218 assumes never to happen (log 13). Raised
  by a host move. Safe: the model stops. -/
  | onlyWhileIdle
deriving DecidableEq, Repr

/-- The machine right after reset (R30): every phase `IDLE`, `BUSY` = `DONE` = 0, buffers empty and no
result held. A register of which R30 says "no value" holds 0 (log 8); what is outside the block is not
reset by it, and stands here empty and at 0 (log 22). -/
def State.reset : State where
  io := { cmd := none, busy := false, done := false, ibuf := [], ibufWritten := [], arg := 0#32,
          crcWritten := false, successWritten := false }
  ce := { phase := .idle, crc := 0#16, idx := 0, bitcnt := 0 }
  fb := { phase := .idle, len := 0, idx := 0, fbuf := [] }
  lr := { phase := .idle, lbuf := [], timeout := 0#32, tStart := 0#32, tBk := 0#32, success := false }
  world := { rxq := [], txq := [], clock := 0, env := [], envDraws := 0 }
  host := { queue := [], got := [] }
  params := Params.default

end Sys2Proof.Machine
end

