-- ==== Sys2Proof/Machine/Ops.lean ====
section
/-! DEFINITION. The constants the source fixes (R7) and the shared operations over buffers, transport,
clock, environment and the interface's BUSY and DONE. The block takes no exception (R200); what stands
in the place of taking one and of returning from it is the timeout stop of R206, `timeoutStop` in
Flags.lean, and `finishOp` below. -/

namespace Sys2Proof.Machine

/-! ## Constants (R7, R90; log 15, log 16) -/

/-- `CRC_INIT`. -/
def crcInit : CrcWord := 0x0000#16

/-- `CRC_POLY`. -/
def crcPoly : CrcWord := 0x1021#16

/-- `CRC_STEPS`. -/
def crcSteps : Nat := 8

/-- First byte of `START_MARKER`, the character `^`. -/
def markerCaret : Byte := 0x5E#8

/-- Second byte of `START_MARKER`, the character `P`. -/
def markerP : Byte := 0x50#8

/-- The character `0`, to which a decimal digit is added. -/
def asciiZero : Nat := 0x30

/-- `TRAILER`: two CRC bytes and the terminator. -/
def trailer : Nat := 3

/-- `TERMINATOR`, carriage return. -/
def terminator : Byte := 0x0D#8

/-! ## Buffers (R50 to R53, R57, R172) -/

/-- `B[i]`: the byte at index `i`, none at or above the length. -/
def Buffer.read (b : Buffer) (i : Nat) : Option Byte := b[i]?

/-- `append(B, v)`. -/
def Buffer.append (b : Buffer) (v : Byte) : Buffer := b ++ [v]

/-- `clear(B)`. -/
def Buffer.clear : Buffer := []

/-- The operand `B[0..n)`. -/
def Buffer.span (b : Buffer) (n : Nat) : List Byte := b.take n

/-- A buffer as (index, byte) pairs from index `a` on. -/
def Buffer.cellsFrom (a : Nat) : Buffer → List Host.Cell
  | [] => []
  | v :: b => (a, v) :: Buffer.cellsFrom (a + 1) b

/-- A buffer as (index, byte) pairs. An index it does not list holds no byte. -/
def Buffer.cells (b : Buffer) : List Host.Cell := Buffer.cellsFrom 0 b

/-- The canonical form of a list of (index, byte) pairs: indices strictly rising. Since an unlisted
index holds no byte, no pair can repeat what an unlisted index reads as. -/
def Memory.wf : List Host.Cell → Bool
  | [] => true
  | [_] => true
  | c :: d :: cs => decide (c.1 < d.1) && Memory.wf (d :: cs)

/-- The value a list of (index, byte) pairs holds at an index. -/
def Memory.read (m : List Host.Cell) (i : Nat) : Option Byte :=
  match m with
  | [] => none
  | c :: cs => if c.1 = i then some c.2 else Memory.read cs i

/-- `MemWrite(B, i, 1, v)`, byte `i` set to `v` and every other byte kept (00_scope.md section 5, R50). -/
def Memory.write (i : Nat) (v : Byte) : List Host.Cell → List Host.Cell
  | [] => [(i, v)]
  | c :: cs =>
    if i < c.1 then (i, v) :: c :: cs
    else if i = c.1 then (i, v) :: cs
    else c :: Memory.write i v cs

/-- Bytes written one behind the other, the first at index `i`. -/
def Memory.writeFrom (i : Nat) (bs : List Byte) (m : List Host.Cell) : List Host.Cell :=
  match bs with
  | [] => m
  | b :: bs => Memory.writeFrom (i + 1) bs (Memory.write i b m)

/-- The bytes from index `k` on, up to the first index that holds none. -/
def Memory.leadingFrom (k : Nat) : List Host.Cell → Buffer
  | [] => []
  | c :: cs => if c.1 = k then c.2 :: Memory.leadingFrom (k + 1) cs else []

/-- A space as a unit reads it that goes through it from index 0 on: its bytes up to the first index that
holds none (R51). -/
def Memory.leading (m : List Host.Cell) : Buffer := Memory.leadingFrom 0 m

/-- A set of indices, rising, with one more. -/
def addIndex (i : Nat) : List Nat → List Nat
  | [] => [i]
  | j :: js => if i < j then i :: j :: js else if i = j then j :: js else j :: addIndex i js

/-- A set of indices with the `n` indices from `i` on. -/
def addIndices (i : Nat) : Nat → List Nat → List Nat
  | 0, js => js
  | n + 1, js => addIndices (i + 1) n (addIndex i js)

/-- `FRAME_LEN` (R22). -/
def frameLen (s : State) : Nat := s.fb.fbuf.length

/-- `LINE_LEN` (R23). -/
def lineLen (s : State) : Nat := s.lr.lbuf.length

/-! ## The environment (R28, R60 to R62; log 5, log 6) -/

/-- Bytes arrive at the tail of the receive stream and the clock advances. -/
def World.arrive (w : World) (bs : List Byte) (ticks : Nat) : World :=
  { w with rxq := w.rxq ++ bs, clock := w.clock + ticks }

/-- One move of the environment: the next scripted one, or, when the script is empty, free values. -/
def World.move (w : World) : World :=
  match w.env with
  | m :: rest => { w.arrive m.arrivals m.ticks with env := rest }
  | [] =>
    { w.arrive (Config.freeArrivals w.envDraws) (Config.freeTicks w.envDraws) with
      envDraws := w.envDraws + 1 }

/-- `k` moves of the environment. -/
def World.moves : Nat → World → World
  | 0, w => w
  | k + 1, w => World.moves k w.move

/-- The environment moves. -/
def envMove (s : State) : State := { s with world := s.world.move }

/-- `Clock.now()`: the clock modulo 2^32 (R62). -/
def clockNow (w : World) : Ms := BitVec.ofNat 32 w.clock

/-- `T.avail()` (R58): at least one received byte is waiting; no side effect. -/
def tAvail (w : World) : Bool := !w.rxq.isEmpty

/-- `T.read()` (R58): the oldest waiting byte and the stream without it; none when nothing waits. -/
def tRead (w : World) : Option (Byte × World) :=
  match w.rxq with
  | [] => none
  | b :: rest => some (b, { w with rxq := rest })

/-- `T.write(bs)` (R59). -/
def tWrite (bs : List Byte) (w : World) : World := { w with txq := w.txq ++ bs }

/-! ## BUSY and DONE (R26) -/

/-- The start of an operation: `BUSY <- 1`, `DONE <- 0`, its `ARG` latched (R29); bytes the host writes
to `IBUF` from here on count for the next command (R83). -/
def beginOp (arg : Arg) (io : IoRegs) : IoRegs :=
  { io with busy := true, done := false, arg := arg, ibufWritten := [] }

/-- The end of an operation: `BUSY <- 0`, `DONE <- 1`. -/
def finishOp (io : IoRegs) : IoRegs := { io with busy := false, done := true }

/-! ## Reset (R30, R230) -/

/-- The block's reset: every register of the block as in `State.reset`, so that `CRC` and `SUCCESS` count
as unwritten again: R230 has "every other register holding no value", U6 "or after a reset and before the
next such operation". The transport, the clock, the host and the parameters are not the block's and
stay. -/
def resetBlock (s : State) : State :=
  { s with io := State.reset.io, ce := State.reset.ce, fb := State.reset.fb, lr := State.reset.lr }

end Sys2Proof.Machine
end

