-- ==== Sys2Proof/Machine/Operands.lean ====
section
/-! DEFINITION. Operands: the operand a command names in `IBUF` (R51, R82, R83), the span the CRC Engine
runs over (R116, R136), and the bytes of the length and CRC fields (R54, R85, R86). -/

namespace Sys2Proof.Machine

/-- `ARG` exceeds `IBUF_CAP` (R83); never, when the capacity is unbounded. -/
def exceedsIbufCap (n : Nat) (p : Params) : Bool :=
  match p.ibufCap with
  | none => false
  | some c => decide (c < n)

/-- `n` exceeds the number of bytes of `IBUF` written since the last command (R83), or names a byte the
host has not written, which holds no value (R83, R203), or exceeds `IBUF_CAP` (log 10). -/
def operandMissing (n : Nat) (s : State) : Bool :=
  decide (s.io.ibufWritten.length < n) || decide ((Memory.leading s.io.ibuf).length < n) ||
    exceedsIbufCap n s.params

/-- The mnemonic length or data length of the running operation, its latched `ARG` (R82). -/
def operandLen (s : State) : Nat := s.io.arg.toNat

/-- The operand of the running operation, `IBUF[0..ARG)` (R51). -/
def operand (s : State) : List Byte := Buffer.span (Memory.leading s.io.ibuf) (operandLen s)

/-- How many bytes precede the CRC field of a Frame: marker, length field and mnemonic (R52, R136). -/
def headerLen (mnemonicLen : Nat) : Nat := 5 + mnemonicLen

/-- The buffer the CRC Engine reads: `FBUF` when the Frame Builder runs it, `IBUF` otherwise (R116). -/
def engineBuffer (s : State) : Buffer :=
  if s.fb.phase = .crcRun then s.fb.fbuf else Memory.leading s.io.ibuf

/-- The length of the span the CRC Engine runs over: `5 + L` of `FBUF`, or `n` of `IBUF` (R116). -/
def engineLen (s : State) : Nat :=
  if s.fb.phase = .crcRun then headerLen (operandLen s) else operandLen s

/-- The span the CRC Engine runs over. -/
def engineSpan (s : State) : List Byte := Buffer.span (engineBuffer s) (engineLen s)

/-- The ASCII character of a decimal digit (R85). -/
def asciiDigit (d : Nat) : Byte := BitVec.ofNat 8 (asciiZero + d)

/-- The hundreds digit of the length field (R85). -/
def digitHundreds (len : Nat) : Byte := asciiDigit (len / 100)

/-- The tens digit of the length field (R85). -/
def digitTens (len : Nat) : Byte := asciiDigit (len / 10 % 10)

/-- The units digit of the length field (R85). -/
def digitUnits (len : Nat) : Byte := asciiDigit (len % 10)

/-- `CRC[15:8]`, the byte that goes first (R54, R86). -/
def crcHigh (c : CrcWord) : Byte := c.extractLsb' 8 8

/-- `CRC[7:0]` (R54, R86). -/
def crcLow (c : CrcWord) : Byte := c.extractLsb' 0 8

end Sys2Proof.Machine
end

