-- ==== Sys2Proof/Machine/Flags.lean ====
section
/-! DEFINITION. The flag SUCCESS and the conditions the operations test (R25, R113, R156, R165, R170). -/

namespace Sys2Proof.Machine

/-- The feedback condition `CRC[15]`, read before a shift (R25, R113). -/
def crcFeedback (c : CrcWord) : Bool := c.getLsbD 15

/-- `now -_32 start`: elapsed milliseconds modulo 2^32 (R62, R170). -/
def elapsed (now start : Ms) : Ms := now - start

/-- `elapsed` milliseconds are still within a timeout of `timeout`: not greater under `gt`, less under
`ge` (R156, D15). -/
def withinBudget (cmp : TimeoutCmp) (elapsed timeout : Nat) : Bool :=
  match cmp with
  | .gt => decide (elapsed ≤ timeout)
  | .ge => decide (elapsed < timeout)

/-- The condition of CHECK that ends READLINE, unsigned (R156, R170). -/
def timedOut (cmp : TimeoutCmp) (elapsed timeout : Ms) : Bool :=
  !withinBudget cmp elapsed.toNat timeout.toNat

/-- The condition that ends a backoff, unsigned (R155, R170). -/
def backoffOver (backoffMs : Nat) (elapsed : Ms) : Bool := decide (backoffMs ≤ elapsed.toNat)

/-- The accumulator holds `LINE_CAP` bytes (R165); never, when the capacity is unbounded. -/
def lineFull (s : State) : Bool :=
  match s.params.lineCap with
  | none => false
  | some c => decide (c ≤ lineLen s)

/-- The byte is the terminator, equality of all 8 bits (R154). -/
def isTerminator (b : Byte) : Bool := b == terminator

/-- The timeout stop of CHECK (R156, R206): `SUCCESS <- 0`; the line is what `LBUF` holds. The end of
the operation, `finishOp`, follows in phase `DONE`. -/
def timeoutStop (lr : LrRegs) : LrRegs := { lr with success := false, phase := .done }

/-- How many values the host has read: the index of the free values of its next read (log 28, log 31). -/
def readCount (s : State) : Nat := s.host.got.length

/-- What bit 2 of `STATUS` shows: `SUCCESS`, or a free value while it has no value (R26, R30; log 28). -/
def visibleSuccess (s : State) : Bool :=
  if s.io.successWritten then s.lr.success else Config.freeSuccessRead (readCount s)

/-- The register `STATUS`: `BUSY` in bit 0, `DONE` in bit 1, `SUCCESS` in bit 2 (R26). -/
def statusWord (s : State) : BitVec 3 :=
  BitVec.ofBool (visibleSuccess s) ++ (BitVec.ofBool s.io.done ++ BitVec.ofBool s.io.busy)

end Sys2Proof.Machine
end

