-- ==== Sys2Proof/Machine/CrcEngine.lean ====
section
/-! DEFINITION. The CRC Engine: the checksum as a function (R110 to R115), its bit-serial form (R118),
the engine's micro-steps (R116) and the command CRC16. -/

namespace Sys2Proof.Machine

/-! ## The function -/

/-- `zext_16(b) * 256`: the byte in bits 15:8, bits 7:0 zero (R112, R170). -/
def highByte (b : Byte) : CrcWord := b.setWidth 16 <<< 8

/-- The byte enters bits 15:8 of the register by exclusive-or (R112, log 15). -/
def loadByte (c : CrcWord) (b : Byte) : CrcWord := c ^^^ highByte b

/-- One shift-and-conditional-exclusive-or step: `CRC[15]` is tested before the shift (R113, log 15). -/
def shiftStep (c : CrcWord) : CrcWord :=
  if crcFeedback c then (c <<< 1) ^^^ crcPoly else c <<< 1

/-- `k` shift steps. -/
def shiftSteps : Nat → CrcWord → CrcWord
  | 0, c => c
  | k + 1, c => shiftSteps k (shiftStep c)

/-- One byte of the span: the load and its eight steps (R110). -/
def crcByte (c : CrcWord) (b : Byte) : CrcWord := shiftSteps crcSteps (loadByte c b)

/-- The loop of R110 over `bs`, from the register value `c`. -/
def crcFrom (c : CrcWord) (bs : List Byte) : CrcWord := bs.foldl crcByte c

/-- `crc16(data)`: the loop from `CRC_INIT`, the register taken as it stands (R110, R111, R114). -/
def crc16 (data : List Byte) : CrcWord := crcFrom crcInit data

/-- One bit of the bit-serial form (R118). -/
def serialBit (c : CrcWord) (bit : Bool) : CrcWord :=
  if Bool.xor (crcFeedback c) bit then (c <<< 1) ^^^ crcPoly else c <<< 1

/-- One byte of the bit-serial form, bit 7 first (R118). -/
def serialByte (c : CrcWord) (b : Byte) : CrcWord :=
  [7, 6, 5, 4, 3, 2, 1, 0].foldl (fun c k => serialBit c (b.getLsbD k)) c

/-- The bit-serial form over a span (R118). -/
def serialCrc16 (data : List Byte) : CrcWord := data.foldl serialByte crcInit

/-! ## The micro-steps (R116) -/

/-- The engine starts: `CRC <- 0x0000`, `CRC_IDX <- 0` (R111, R116). -/
def crcStart (ce : CrcRegs) : CrcRegs := { ce with crc := crcInit, idx := 0, phase := .load }

/-- LOAD of byte `b`. -/
def crcLoad (b : Byte) (ce : CrcRegs) : CrcRegs :=
  { ce with crc := loadByte ce.crc b, bitcnt := 0, phase := .shift }

/-- SHIFT with `CRC_BITCNT < 8`. -/
def crcShift (ce : CrcRegs) : CrcRegs :=
  { ce with crc := shiftStep ce.crc, bitcnt := ce.bitcnt + 1 }

/-- SHIFT with `CRC_BITCNT = 8`. -/
def crcNextByte (ce : CrcRegs) : CrcRegs := { ce with idx := ce.idx + 1, phase := .load }

/-- One row of the table of R116. In phase `DONE` the engine hands its result to the Frame Builder when
that runs it, and ends the command CRC16 otherwise. -/
def crcMicro (s : State) : Host.Outcome State Fault Refusal :=
  match s.ce.phase with
  | .idle =>
    if s.fb.phase = .crcRun then .next { s with ce := crcStart s.ce } else .fault .noActiveUnit
  | .load =>
    if s.ce.idx < engineLen s then
      match Buffer.read (engineBuffer s) s.ce.idx with
      | some b => .next { s with ce := crcLoad b s.ce }
      | none => .fault .indexOutOfRange
    else .next { s with ce := { s.ce with phase := .done } }
  | .shift =>
    if s.ce.bitcnt < crcSteps then .next { s with ce := crcShift s.ce }
    else .next { s with ce := crcNextByte s.ce }
  | .done =>
    if s.fb.phase = .crcRun then
      .next { s with ce := { s.ce with phase := .idle }, fb := { s.fb with phase := .crcHi } }
    else
      .next { s with ce := { s.ce with phase := .idle }, io := finishOp s.io }

/-! ## The command -/

/-- `CRC16` accepted: the row `IDLE` of R116 with the start of an operation (R26). -/
def acceptCrc16 (n : Arg) (s : State) : State :=
  { s with io := { beginOp n s.io with crcWritten := true }, ce := crcStart s.ce }

/-- `CRC16`: refused while `BUSY` = 1 or when the operand is missing (R83), else accepted; the steps
that follow run the engine (R110, R116). -/
def execCrc16 (n : Arg) (s : State) : Host.Outcome State Fault Refusal :=
  if s.io.busy then .refused .busy
  else if operandMissing n.toNat s then .refused .operandMissing
  else .next (acceptCrc16 n s)

end Sys2Proof.Machine
end

