-- ==== Sys2Proof/Machine/FrameBuilder.lean ====
section
/-! DEFINITION. The Frame Builder: the Frame as a function (R130 to R137), the builder's micro-steps
(R140) and the command BUILD. -/

namespace Sys2Proof.Machine

/-! ## The function -/

/-- `LEN`, the value of the length field for a mnemonic of `n` bytes (R131). -/
def lengthField (n : Nat) : Nat := n + trailer

/-- The three digits of the length field (R134, R85). -/
def lengthDigits (len : Nat) : List Byte := [digitHundreds len, digitTens len, digitUnits len]

/-- Marker, length field and mnemonic: steps 1 to 3 (R131, R133, R134, R135). -/
def frameHeader (m : List Byte) : List Byte :=
  [markerCaret, markerP] ++ lengthDigits (lengthField m.length) ++ m

/-- The Frame of a mnemonic: the header, its CRC high byte first, and the terminator (R130, R136,
R137). -/
def buildFrame (m : List Byte) : List Byte :=
  frameHeader m ++ [crcHigh (crc16 (frameHeader m)), crcLow (crc16 (frameHeader m)), terminator]

/-! ## The micro-steps (R140) -/

/-- One append with the next phase. -/
def fbAppend (v : Byte) (next : FbPhase) (fb : FbRegs) : FbRegs :=
  { fb with fbuf := Buffer.append fb.fbuf v, phase := next }

/-- MNEM with `FB_IDX < L`: one mnemonic byte copied. -/
def fbCopy (b : Byte) (fb : FbRegs) : FbRegs :=
  { fb with fbuf := Buffer.append fb.fbuf b, idx := fb.idx + 1 }

/-- One row of the table of R140. -/
def fbMicro (s : State) : Host.Outcome State Fault Refusal :=
  match s.fb.phase with
  | .idle => .fault .noActiveUnit
  | .lenCalc =>
    .next { s with fb := { s.fb with len := lengthField (operandLen s), idx := 0, phase := .mark0 } }
  | .mark0 => .next { s with fb := fbAppend markerCaret .mark1 s.fb }
  | .mark1 => .next { s with fb := fbAppend markerP .dig2 s.fb }
  | .dig2 => .next { s with fb := fbAppend (digitHundreds s.fb.len) .dig1 s.fb }
  | .dig1 => .next { s with fb := fbAppend (digitTens s.fb.len) .dig0 s.fb }
  | .dig0 => .next { s with fb := fbAppend (digitUnits s.fb.len) .mnem s.fb }
  | .mnem =>
    if s.fb.idx < operandLen s then
      match Buffer.read (Memory.leading s.io.ibuf) s.fb.idx with
      | some b => .next { s with fb := fbCopy b s.fb }
      | none => .fault .indexOutOfRange
    else .next { s with fb := { s.fb with phase := .crcRun } }
  | .crcRun => crcMicro s
  | .crcHi => .next { s with fb := fbAppend (crcHigh s.ce.crc) .crcLo s.fb }
  | .crcLo => .next { s with fb := fbAppend (crcLow s.ce.crc) .term s.fb }
  | .term => .next { s with fb := fbAppend terminator .done s.fb }
  | .done =>
    .next { s with fb := { s.fb with phase := .idle }, io := finishOp s.io }

/-! ## The command -/

/-- `BUILD` accepted: the row `IDLE` of R140 with the start of an operation (R26). -/
def acceptBuild (len : Arg) (s : State) : State :=
  { s with io := { beginOp len s.io with crcWritten := true },
           fb := { s.fb with fbuf := Buffer.clear, phase := .lenCalc } }

/-- `BUILD`: refused while `BUSY` = 1, when `L > 996` (R132) or when the operand is missing (R83), else
accepted; the steps that follow build the Frame (R130, R140). -/
def execBuild (len : Arg) (s : State) : Host.Outcome State Fault Refusal :=
  if s.io.busy then .refused .busy
  else if maxMnemonic < len.toNat then .refused .lenOverflow
  else if operandMissing len.toNat s then .refused .operandMissing
  else .next (acceptBuild len s)

end Sys2Proof.Machine
end

