-- ==== Sys2Proof/Machine/HostSide.lean ====
section
/-! DEFINITION. The host's moves on the interface and on the transport (R26, R59, R218, R230, R242), and
the textual lines and the pseudo-operation EXCHANGE as scripts of such moves (R91, R92, R219). -/

namespace Sys2Proof.Machine

/-! ## Host actions -/

/-- Bytes of `IBUF` written from index `i` on, in any order of indices, an earlier byte there replaced
(R26, R50, R51; log 10). -/
def writeIbuf (i : Nat) (bs : List Byte) (io : IoRegs) : IoRegs :=
  { io with ibuf := Memory.writeFrom i bs io.ibuf,
            ibufWritten := addIndices i bs.length io.ibufWritten }

/-- What a read hands back is recorded in order. -/
def handBack (v : Nat) (s : State) : Host.Outcome State Fault Refusal :=
  .next { s with host := { s.host with got := s.host.got ++ [v] } }

/-- A read of a register that may hold no value: refused then, as R30, R203 (row `UnwrittenRead`) and U6
say of `CRC` and `SUCCESS`. -/
def handBackIf (holds : Bool) (v : Nat) (s : State) : Host.Outcome State Fault Refusal :=
  if holds then handBack v s else .refused .unwrittenRead

/-- An operation that makes `CRC` runs: CRC16 or BUILD. -/
def makingCrc (s : State) : Bool := decide (s.ce.phase ≠ .idle) || decide (s.fb.phase ≠ .idle)

/-- The operation that makes `FBUF` runs: BUILD. -/
def makingFrame (s : State) : Bool := decide (s.fb.phase ≠ .idle)

/-- The operation that makes `LBUF` runs: READLINE. -/
def makingLine (s : State) : Bool := decide (s.lr.phase ≠ .idle)

/-- What a read of `CRC` sees: the register, or a free value while it is being made (R26, log 31). -/
def visibleCrc (s : State) : CrcWord :=
  if makingCrc s then Config.freeCrcRead (readCount s) else s.ce.crc

/-- What a read of `FRAME_LEN` sees: the length of `FBUF`, or a free value while that is being made. -/
def visibleFrameLen (s : State) : Nat :=
  if makingFrame s then (Config.freeFrameLenRead (readCount s)).toNat else frameLen s

/-- What a read of `LINE_LEN` sees: the length of `LBUF`, or a free value, at most `LINE_CAP`, while that
is being made. -/
def visibleLineLen (s : State) : Nat :=
  if makingLine s then
    match s.params.lineCap with
    | none => Config.freeLineLenRead (readCount s)
    | some c => min c (Config.freeLineLenRead (readCount s))
  else lineLen s

/-- The bytes a host's `T.write(FBUF[0..FRAME_LEN))` hands on: `FBUF`, or, while BUILD runs, a free value
of a length that fits the 11 bits of `FRAME_LEN` (R26, R59, R141; log 32). -/
def visibleFrame (s : State) : List Byte :=
  if makingFrame s then (Config.freeFrameSent s.host.queue.length).take 2047 else s.fb.fbuf

/-- A read of byte `i` of a result buffer: refused at or above its length (R203, U6, C11), a free value while the
buffer is being made (log 31), else the byte. -/
def readByte (making : Bool) (b : Buffer) (i : Nat) (s : State) : Host.Outcome State Fault Refusal :=
  match Buffer.read b i with
  | some v => handBack (if making then Config.freeByteRead (readCount s) else v).toNat s
  | none => .refused .unwrittenRead

/-- A host read of the interface (R26, R30), whatever `BUSY` is. `FBUF` stays readable after the host has
written it to the transport: R218 assumes that no host relies on it then (log 30). -/
def hostRead (r : HostReg) (s : State) : Host.Outcome State Fault Refusal :=
  match r with
  | .cmd => .refused .writeOnly
  | .ibuf _ => .refused .writeOnly
  | .status => handBack (statusWord s).toNat s
  | .busy => handBack s.io.busy.toNat s
  | .done => handBack s.io.done.toNat s
  | .success => handBackIf s.io.successWritten s.lr.success.toNat s
  | .crc => handBackIf s.io.crcWritten (visibleCrc s).toNat s
  | .frameLen => handBack (visibleFrameLen s) s
  | .lineLen => handBack (visibleLineLen s) s
  | .fbuf i => readByte (makingFrame s) s.fb.fbuf i s
  | .lbuf i => readByte (makingLine s) s.lr.lbuf i s

/-- `T.read()` by the host (R58, U7). -/
def hostTakeByte (s : State) : Host.Outcome State Fault Refusal :=
  match tRead s.world with
  | some (b, w) => handBack b.toNat { s with world := w }
  | none => .refused .nothingWaiting

/-- One action of the host. A write of `CMD` leaves the word pending; the next step accepts or refuses
it (log 3). `IBUF` is writable only while `BUSY` = 0 (R26, R66), and the host does not poll or read the
transport while READLINE runs (R218, log 13). `transmitFrame` may be repeated: R218 assumes that no host
relies on `FBUF` after the first (log 30); and it may come while BUILD runs, when what it hands on is a
free value (log 32). -/
def hostAct (a : HostAction) (s : State) : Host.Outcome State Fault Refusal :=
  match a with
  | .writeIbuf i bs =>
    if s.io.busy then .refused .onlyWhileIdle else .next { s with io := writeIbuf i bs s.io }
  | .writeCmd w => .next { s with io := { s.io with cmd := some w } }
  | .readReg r => hostRead r s
  | .writeReg _ => .refused .readOnly
  | .transmit bs => .next { s with world := tWrite bs s.world }
  | .transmitFrame => .next { s with world := tWrite (visibleFrame s) s.world }
  | .pollAvail =>
    if makingLine s then .refused .onlyWhileIdle else handBack (tAvail s.world).toNat s
  | .takeByte => if makingLine s then .refused .onlyWhileIdle else hostTakeByte s
  | .reset => .next (resetBlock s)

/-! ## Lines of the textual syntax (R91, R92) -/

/-- A line of a program (R91), the pseudo-operation EXCHANGE among them (R92). -/
inductive Line
  | idle
  | crc16 (bytes : List Byte)
  | build (bytes : List Byte)
  | readline (t : Arg)
  | exchange (bytes : List Byte) (t : Arg)
deriving DecidableEq, Repr

/-- A move the host makes once the block is not busy. -/
def blocking (a : HostAction) : HostMove := { wait := .whenIdle, act := a }

/-- The command of a byte operand: write it to `IBUF`, then issue the command with its length (R91).
DESIGN CHOICE (log 29): R91 gives a line of 2^32 bytes or more no word, since `ARG` has 32 bits; here its
length is taken modulo 2^32. -/
def issueWith (bytes : List Byte) (i : Arg → Instr) : List HostMove :=
  [blocking (.writeIbuf 0 bytes), blocking (.writeCmd (encode (i (BitVec.ofNat 32 bytes.length))))]

/-- The host moves a line stands for (R91, R92). DESIGN CHOICE (log 34): R91 gives the line `IDLE` only
`OP` = 00; here its word has `ARG` = 0, which IDLE ignores (R82, R94). -/
def Line.moves : Line → List HostMove
  | .idle => [blocking (.writeCmd (encode (.idle 0#32)))]
  | .crc16 bytes => issueWith bytes .crc16
  | .build bytes => issueWith bytes .build
  | .readline t => [blocking (.writeCmd (encode (.readline t)))]
  | .exchange bytes t =>
    issueWith bytes .build ++ [blocking .transmitFrame, blocking (.writeCmd (encode (.readline t)))]

/-- A program: its lines in order. -/
def programMoves (p : List Line) : List HostMove := p.flatMap Line.moves

/-- The mnemonic `MOD` of the mode query (R90, R219). -/
def mnemonicMod : List Byte := [0x4D#8, 0x4F#8, 0x44#8]

/-- The block's part of one host cycle: the mode exchange, then the status exchange (R92, R219), for
host-level parameters that R8 allows; none for others. -/
def hostCycle (p : HostParams) : Option (List Line) :=
  if p.legal then
    some [.exchange mnemonicMod p.tMode, .exchange p.statusMnemonic p.tStatus]
  else none

end Sys2Proof.Machine
end

