-- ==== Sys2Proof/Machine/Idle.lean ====
section
/-! DEFINITION. The command IDLE (R94). -/

namespace Sys2Proof.Machine

/-- `IDLE`: no register, buffer, flag or phase changes, whatever `ARG` and `BUSY` are (R94, R83). -/
def execIdle (_arg : Arg) (s : State) : Host.Outcome State Fault Refusal := .next s

end Sys2Proof.Machine
end

