-- ==== Sys2Proof/Machine/LineReader.lean ====
section
/-! DEFINITION. The Line Reader: its micro-steps (R150 to R157) and the command READLINE. -/

namespace Sys2Proof.Machine

/-! ## The micro-steps (R157) -/

/-- START: `T_START <- Clock.now()` (R151). -/
def lrStart (s : State) : State :=
  { s with lr := { s.lr with tStart := clockNow s.world, phase := .check } }

/-- CHECK: one clock sample, the timeout stop or on to the poll (R156). -/
def lrCheck (s : State) : State :=
  if timedOut s.params.timeoutCmp (elapsed (clockNow s.world) s.lr.tStart) s.lr.timeout then
    { s with lr := timeoutStop s.lr }
  else { s with lr := { s.lr with phase := .poll } }

/-- POLL: on to the receive, refused when the accumulator is full, or into a backoff whose start is
sampled (R152, R155, R165). -/
def lrPoll (s : State) : Host.Outcome State Fault Refusal :=
  if tAvail s.world then
    if lineFull s then .refused .lineCapExceeded
    else .next { s with lr := { s.lr with phase := .recv } }
  else .next { s with lr := { s.lr with tBk := clockNow s.world, phase := .backoff } }

/-- The byte appended, and the stop when it is the terminator (R153, R154). -/
def lrAccept (b : Byte) (lr : LrRegs) : LrRegs :=
  if isTerminator b then
    { lr with lbuf := Buffer.append lr.lbuf b, success := true, phase := .done }
  else { lr with lbuf := Buffer.append lr.lbuf b, phase := .check }

/-- RECV: the oldest waiting byte is read and appended (R153, R154). -/
def lrRecv (s : State) : Host.Outcome State Fault Refusal :=
  match tRead s.world with
  | some (b, w) => .next { s with lr := lrAccept b s.lr, world := w }
  | none => .refused .nothingWaiting

/-- BACKOFF: one clock sample; back to CHECK once `BACKOFF_MS` have passed (R155). -/
def lrBackoff (s : State) : State :=
  if backoffOver s.params.backoffMs (elapsed (clockNow s.world) s.lr.tBk) then
    { s with lr := { s.lr with phase := .check } }
  else s

/-- DONE: the results are valid (R157, R26). -/
def lrDone (s : State) : State :=
  { s with lr := { s.lr with phase := .idle }, io := finishOp s.io }

/-- One row of the table of R157. -/
def lrMicro (s : State) : Host.Outcome State Fault Refusal :=
  match s.lr.phase with
  | .idle => .fault .noActiveUnit
  | .start => .next (lrStart s)
  | .check => .next (lrCheck s)
  | .poll => lrPoll s
  | .recv => lrRecv s
  | .backoff => .next (lrBackoff s)
  | .done => .next (lrDone s)

/-! ## The command -/

/-- `READLINE` accepted: the row `IDLE` of R157 with the start of an operation (R26, R151). `SUCCESS` is
written here, so it holds a value from here on (R25, R31). The transport is not touched. -/
def acceptReadline (timeoutMs : Arg) (s : State) : State :=
  { s with io := { beginOp timeoutMs s.io with successWritten := true },
           lr := { s.lr with lbuf := Buffer.clear, success := false, timeout := timeoutMs,
                             phase := .start } }

/-- `READLINE`: refused while `BUSY` = 1 (R83), else accepted; the steps that follow run the loop of
R150 (R157). -/
def execReadline (timeoutMs : Arg) (s : State) : Host.Outcome State Fault Refusal :=
  if s.io.busy then .refused .busy
  else .next (acceptReadline timeoutMs s)

end Sys2Proof.Machine
end

