-- ==== Sys2Proof/Machine/Sequencer.lean ====
section
/-! DEFINITION. Who moves next: the pending command, the host, the active unit, or nobody while the block
waits (R20, R24, R64). -/

namespace Sys2Proof.Machine

/-- The pending command word, decoded, and the state with nothing pending (R26, R81). -/
def fetch (s : State) : Option (Instr × State) :=
  match s.io.cmd with
  | some w => some (decodeWord w, { s with io := { s.io with cmd := none } })
  | none => none

/-- One row of the active unit's phase table (R20, R24): at most one unit is active, but for the CRC
Engine inside the Frame Builder's phase `CRCRUN`. -/
def unitMicro (s : State) : Host.Outcome State Fault Refusal :=
  if s.lr.phase ≠ .idle then lrMicro s
  else if s.fb.phase ≠ .idle then fbMicro s
  else crcMicro s

/-- A step of the block: a micro-step while `BUSY` = 1; while `BUSY` = 0 the block waits in `IDLE`
(R30, log 26). -/
def blockStep (s : State) : Host.Outcome State Fault Refusal :=
  if s.io.busy then unitMicro s else .next s

/-- The state with `q` as the host's moves still to come. -/
def withQueue (q : List HostMove) (s : State) : State := { s with host := { s.host with queue := q } }

/-- The host action that is due, with the moves after it: the head of the queue, once `BUSY` = 0 when it
waits for that, or once its count of steps has run out (log 4). -/
def hostDue (s : State) : Option (HostAction × List HostMove) :=
  match s.host.queue with
  | [] => none
  | m :: rest =>
    match m.wait with
    | .whenIdle => if s.io.busy then none else some (m.act, rest)
    | .after 0 => some (m.act, rest)
    | .after (_ + 1) => none

/-- The host's queue after one more step of the block: a count of steps at its head goes down by one. -/
def queueTick : List HostMove → List HostMove
  | [] => []
  | m :: rest =>
    match m.wait with
    | .after (k + 1) => { m with wait := .after k } :: rest
    | .after 0 => m :: rest
    | .whenIdle => m :: rest

/-- A step with no command pending: the host's move if one is due, else a step of the block. -/
def advance (s : State) : Host.Outcome State Fault Refusal :=
  match hostDue s with
  | some (a, rest) => hostAct a (withQueue rest s)
  | none => blockStep (withQueue (queueTick s.host.queue) s)

end Sys2Proof.Machine
end

