-- ==== Sys2Proof/Machine/Dispatch.lean ====
section
/-! DEFINITION. One arm per command of spec/opcode_table.json. -/

namespace Sys2Proof.Machine

def exec (i : Instr) (s : State) : Host.Outcome State Fault Refusal :=
  match i with
  | .idle arg => Sys2Proof.Machine.execIdle arg s
  | .crc16 n => Sys2Proof.Machine.execCrc16 n s
  | .build len => Sys2Proof.Machine.execBuild len s
  | .readline timeoutMs => Sys2Proof.Machine.execReadline timeoutMs s

end Sys2Proof.Machine
end

