-- ==== Sys2Proof/Machine/Step.lean ====
section
/-! DEFINITION. One step of the machine. -/

namespace Sys2Proof.Machine

/-- One step: the environment moves, as it may between any two steps (R61, R157, D35; log 5); then the
pending command is accepted or refused, or, with none pending, the machine advances. -/
def step (s : State) : Host.Outcome State Fault Refusal :=
  match fetch (envMove s) with
  | some (i, t) => exec i t
  | none => advance (envMove s)

/-- The state with the command word `w` written to `CMD`, so that the next step takes it up (log 3). -/
def State.withFetchWord (s : State) (nbits w : Nat) : State :=
  { s with io := { s.io with cmd := some (BitVec.ofNat 34 (w % 2 ^ nbits)) } }

end Sys2Proof.Machine
end

