-- ==== Sys2Proof/Machine/Bus.lean ====
section
/-! DEFINITION. The interface under a bus map: which register stands at an address, and which host action
an access on the bus is (R8, R26, R63, D3; log 24). -/

namespace Sys2Proof

open Machine

/-- The address lies in the window. -/
def Window.has (w : Window) (a : Nat) : Bool := decide (w.base ≤ a) && decide (a < w.base + w.size)

/-- Two windows share no address. -/
def Window.apart (v w : Window) : Bool :=
  decide (v.size = 0) || decide (w.size = 0) ||
    decide (v.base + v.size ≤ w.base) || decide (w.base + w.size ≤ v.base)

/-- The window of one register. -/
def Window.single (a : Nat) : Window := { base := a, size := 1 }

/-- The address of byte `i` of the window. -/
def Window.addr (w : Window) (i : Nat) : Option Nat := if i < w.size then some (w.base + i) else none

/-- The windows of a bus map, in the order of the register numbers of R26. -/
def BusMap.windows (m : BusMap) : List Window :=
  [.single m.cmd, .single m.status, .single m.crc, .single m.frameLen, .single m.lineLen,
   m.ibuf, m.fbuf, m.lbuf]

/-- No address stands for two registers. -/
def BusMap.legal (m : BusMap) : Bool := decide (m.windows.Pairwise fun v w => Window.apart v w = true)

/-- The register or buffer byte at an address. -/
def BusMap.reg (m : BusMap) (a : Nat) : Option HostReg :=
  if a = m.cmd then some .cmd
  else if a = m.status then some .status
  else if a = m.crc then some .crc
  else if a = m.frameLen then some .frameLen
  else if a = m.lineLen then some .lineLen
  else if Window.has m.ibuf a then some (.ibuf (a - m.ibuf.base))
  else if Window.has m.fbuf a then some (.fbuf (a - m.fbuf.base))
  else if Window.has m.lbuf a then some (.lbuf (a - m.lbuf.base))
  else none

/-- The address of a register or buffer byte; a field of `STATUS` has none of its own. -/
def BusMap.addr (m : BusMap) (r : HostReg) : Option Nat :=
  match r with
  | .cmd => some m.cmd
  | .status => some m.status
  | .busy => none
  | .done => none
  | .success => none
  | .crc => some m.crc
  | .frameLen => some m.frameLen
  | .lineLen => some m.lineLen
  | .ibuf i => Window.addr m.ibuf i
  | .fbuf i => Window.addr m.fbuf i
  | .lbuf i => Window.addr m.lbuf i

/-- An access of the host on the bus, to one register or one buffer byte. DESIGN CHOICE (log 33): the spec
gives no data width of a bus; here every write carries 34 bits, the width of `CMD`, and a byte of `IBUF`
is the low 8 of them. -/
inductive BusAccess
  | read (addr : Nat)
  | write (addr : Nat) (v : CmdWord)
deriving DecidableEq, Repr

/-- The host action a write of `v` to a register is; a byte of `IBUF` takes the low 8 bits of the value
written (log 33). -/
def busWrite (v : CmdWord) (r : HostReg) : HostAction :=
  match r with
  | .cmd => .writeCmd v
  | .ibuf i => .writeIbuf i [v.setWidth 8]
  | .status => .writeReg .status
  | .busy => .writeReg .status
  | .done => .writeReg .status
  | .success => .writeReg .status
  | .crc => .writeReg .crc
  | .frameLen => .writeReg .frameLen
  | .lineLen => .writeReg .lineLen
  | .fbuf i => .writeReg (.fbuf i)
  | .lbuf i => .writeReg (.lbuf i)

/-- The host action a bus access is under the map `m`; none at an address of no register. -/
def busAction (m : BusMap) (x : BusAccess) : Option HostAction :=
  match x with
  | .read a => (m.reg a).map .readReg
  | .write a v => (m.reg a).map (busWrite v)

end Sys2Proof
end

