-- ==== Sys2Proof/Safety.lean ====
section
/-! DEFINITION. What claims are stated in: runs, the host that waits, and the invariant of the machine. -/

namespace Sys2Proof

open Machine

/-- The state after `k` steps, or the first fault or refusal. -/
def runFor : Nat → State → Host.Outcome State Fault Refusal
  | 0, s => .next s
  | k + 1, s =>
    match step s with
    | .next t => runFor k t
    | .fault f => .fault f
    | .refused r => .refused r

/-- The host is blocked while the block is busy (R64, R218): its next move, if any, waits for
`BUSY` = 0. -/
def hostBlocked (s : State) : Bool :=
  match s.host.queue with
  | [] => true
  | m :: _ => m.wait == .whenIdle

/-- No command is pending and the host, if it has a move to make, waits for `BUSY` = 0. -/
def undisturbed (s : State) : Bool := s.io.cmd.isNone && hostBlocked s

/-- The total advance of the clock over environment moves. -/
def totalTicks (ms : List EnvMove) : Nat := (ms.map EnvMove.ticks).sum

/-- All bytes that arrive over environment moves, oldest first. -/
def allArrivals (ms : List EnvMove) : List Byte := ms.flatMap EnvMove.arrivals

/-! ## The invariant -/

/-- R20, R24, R26, R30: which units may be active together, with what `STATUS`; and a result that is being
made counts as written. -/
structure UnitsInv (s : State) : Prop where
  quiet : s.io.busy = false → s.ce.phase = .idle ∧ s.fb.phase = .idle ∧ s.lr.phase = .idle
  active : s.io.busy = true → s.ce.phase ≠ .idle ∨ s.fb.phase ≠ .idle ∨ s.lr.phase ≠ .idle
  readerAlone : s.lr.phase ≠ .idle → s.fb.phase = .idle ∧ s.ce.phase = .idle
  engineUse : s.ce.phase ≠ .idle → s.fb.phase = .idle ∨ s.fb.phase = .crcRun
  status : s.io.busy = true → s.io.done = false
  crcResult : s.ce.phase ≠ .idle ∨ s.fb.phase ≠ .idle → s.io.crcWritten = true
  lineResult : s.lr.phase ≠ .idle → s.io.successWritten = true

/-- R21, R50, R51, R83, R116, R155: widths, ranges and the form of `IBUF`, that hold in every phase. -/
structure RangesInv (s : State) : Prop where
  bitcnt : s.ce.bitcnt ≤ crcSteps
  len : s.fb.len ≤ 999
  fbIdx : s.fb.idx ≤ maxMnemonic
  ibuf : Memory.wf s.io.ibuf = true
  rising : s.io.ibufWritten.Pairwise (· < ·)
  written : ∀ i ∈ s.io.ibufWritten, (Memory.read s.io.ibuf i).isSome = true
  operand : s.ce.phase ≠ .idle ∨ s.fb.phase ≠ .idle → operandLen s ≤ (Memory.leading s.io.ibuf).length
  backoff : 0 < s.params.backoffMs

/-- R110, R116: what `CRC` holds in each phase of the engine. -/
structure EngineInv (s : State) : Prop where
  idx : s.ce.phase ≠ .idle → s.ce.idx ≤ engineLen s
  load : s.ce.phase = .load → s.ce.crc = crc16 ((engineSpan s).take s.ce.idx)
  shift : s.ce.phase = .shift → s.ce.idx < engineLen s ∧
    ∀ b, Buffer.read (engineBuffer s) s.ce.idx = some b →
      s.ce.crc = shiftSteps s.ce.bitcnt (loadByte (crc16 ((engineSpan s).take s.ce.idx)) b)
  done : s.ce.phase = .done → s.ce.crc = crc16 (engineSpan s)

/-- How many bytes of the Frame `FBUF` holds in each phase of the Frame Builder (R140). -/
def emitted (s : State) : Nat :=
  match s.fb.phase with
  | .idle => 0
  | .lenCalc => 0
  | .mark0 => 0
  | .mark1 => 1
  | .dig2 => 2
  | .dig1 => 3
  | .dig0 => 4
  | .mnem => headerLen s.fb.idx
  | .crcRun => headerLen (operandLen s)
  | .crcHi => headerLen (operandLen s)
  | .crcLo => headerLen (operandLen s) + 1
  | .term => headerLen (operandLen s) + 2
  | .done => headerLen (operandLen s) + 3

/-- The phases of the Frame Builder between its length calculation and the copy of the mnemonic. -/
def beforeCopy (p : FbPhase) : Bool :=
  p == .mark0 || p == .mark1 || p == .dig2 || p == .dig1 || p == .dig0

/-- The phases of the Frame Builder after the CRC Engine has run. -/
def afterCrcRun (p : FbPhase) : Bool := p == .crcHi || p == .crcLo || p == .term || p == .done

/-- R130 to R140: in every phase `FBUF` holds the bytes of the operand's Frame emitted so far, and
between operations the Frame of some mnemonic, or nothing. -/
structure BuilderInv (s : State) : Prop where
  legal : s.fb.phase ≠ .idle → operandLen s ≤ maxMnemonic
  len : s.fb.phase ≠ .idle → s.fb.phase ≠ .lenCalc → s.fb.len = lengthField (operandLen s)
  idx : s.fb.phase ≠ .idle → s.fb.phase ≠ .lenCalc → s.fb.idx ≤ operandLen s
  fresh : beforeCopy s.fb.phase = true → s.fb.idx = 0
  soFar : s.fb.phase ≠ .idle → s.fb.fbuf = (buildFrame (operand s)).take (emitted s)
  crc : afterCrcRun s.fb.phase = true → s.ce.crc = crc16 (frameHeader (operand s))
  result : s.fb.phase = .idle →
    s.fb.fbuf = [] ∨ ∃ m : List Byte, m.length ≤ maxMnemonic ∧ s.fb.fbuf = buildFrame m

/-- R152 to R159, R165: a line has a terminator exactly when `SUCCESS` = 1, and then one, as its last
byte; a byte waits whenever the reader is about to receive; the accumulator keeps within `LINE_CAP`. -/
structure ReaderInv (s : State) : Prop where
  failed : s.lr.success = false → terminator ∉ s.lr.lbuf
  succeeded : s.lr.success = true → ∃ body, s.lr.lbuf = body ++ [terminator] ∧ terminator ∉ body
  running : s.lr.phase ≠ .idle → s.lr.phase ≠ .done → s.lr.success = false
  waiting : s.lr.phase = .recv → s.world.rxq ≠ [] ∧ lineFull s = false
  capacity : ∀ c, s.params.lineCap = some c → lineLen s ≤ c

/-- The invariant of the machine. -/
structure MachineInv (s : State) : Prop where
  units : UnitsInv s
  ranges : RangesInv s
  engine : EngineInv s
  builder : BuilderInv s
  reader : ReaderInv s

end Sys2Proof
end

