-- ==== Sys2Proof/Certificates/Slice0/Obligations.lean ====
section
/-! DEFINITION. The statements about the machine, for the provers. Rules R<n> are the spec's; "log n" is
notes/assumptions/n.md. -/

open Sys2Proof Sys2Proof.Machine

/-! ## Encoding (30_encoding.md) -/

/-- R80, R81, R82: encoding and decoding are inverse to each other, on words and on the five bytes that
hold a word (the byte layout is the model's choice, log 2): no bit of a command word is dropped. -/
def Obligations.CommandWordsRoundTrip : Prop :=
  (∀ i : Instr, decodeWord (encode i) = i) ∧
  (∀ w : CmdWord, encode (decodeWord w) = w) ∧
  (∀ i : Instr, decodeBytes (encodeBytes i) = .ok i)

/-- The decoder reads a command from exactly the bytes the encoder writes for it, and refuses all other
bytes (R80, R83; log 2). -/
def Obligations.DecoderAcceptsExactlyTheEncodings : Prop :=
  ∀ (bs : List Byte) (i : Instr), decodeBytes bs = .ok i ↔ bs = encodeBytes i

/-- R81, R83: by match and mask every word falls under exactly the row whose mnemonic it decodes to; no
value of `OP` is reserved. -/
def Obligations.EveryWordFallsUnderItsOneOpcodeRow : Prop :=
  ∀ (w : CmdWord) (r : OpcodeRow), r ∈ opcodeTable →
    (r.covers w = true ↔ r.mnemonic = (decodeWord w).mnemonic)

/-- Words written out bit by bit from R80 and R81 decode to the commands they stand for. -/
def Obligations.WrittenOutWordsDecode : Prop :=
  decodeWord 0b0000000000000000000000000000000000#34 = .idle 0#32 ∧
  decodeWord 0b0100000000000000000000000000001001#34 = .crc16 9#32 ∧
  decodeWord 0b1000000000000000000000001111100100#34 = .build 996#32 ∧
  decodeWord 0b1100000000000000000000000000110010#34 = .readline 50#32 ∧
  decodeWord 0b1111111111111111111111111111111111#34 = .readline 4294967295#32

/-! ## One step -/

/-- A step with a command pending is a move of the environment and then that command's meaning on the state
with nothing pending; a host write of `CMD`, whatever `BUSY` is, leaves its word pending and changes nothing
else, so that the very next step takes it up; and so does the word placed for a command from outside (R26,
R81). That a written command stays pending until the next step is the model's choice (log 3), and so are
the one move before it (log 5) and the byte layout behind `decodeTableWord` (log 2). -/
def Obligations.StepTakesUpThePendingCommand : Prop :=
  (∀ (s : State) (w : CmdWord), s.io.cmd = some w →
    step s = exec (decodeWord w)
      { s with io := { s.io with cmd := none }, world := s.world.move }) ∧
  (∀ (s : State) (w : CmdWord), ∃ t, hostAct (.writeCmd w) s = .next t ∧
    t = { s with io := { s.io with cmd := some w } } ∧
    step t = exec (decodeWord w)
      { s with io := { s.io with cmd := none }, world := s.world.move }) ∧
  (∀ (s : State) (i : Instr),
    decodeTableWord 40 (encode i).toNat = some i ∧
    step (s.withFetchWord 40 (encode i).toNat) =
      exec i { s with io := { s.io with cmd := none }, world := s.world.move })

/-- R30: with no command pending, no operation running and no host move left, the block waits. That such a
step is a step of the machine, and that it is exactly one move of the environment, is the model's choice
(log 26, log 5). -/
def Obligations.WaitingBlockOnlyLetsTheEnvironmentMove : Prop :=
  ∀ s : State, s.io.cmd = none → s.io.busy = false → s.host.queue = [] →
    step s = .next { s with world := s.world.move }

/-! ## IDLE (R94) -/

/-- R94: `IDLE` changes nothing, whatever its `ARG` and whether or not the block is busy, and the
all-zero word is `IDLE`. -/
def Obligations.IdleChangesNothing : Prop :=
  (∀ (a : Arg) (s : State), exec (.idle a) s = .next s) ∧ decodeWord 0#34 = .idle 0#32

/-! ## Which commands are refused (R83, R203) -/

/-- R132: BUILD with `L > 996` gets no meaning in any state: it is refused, as `LenOverflow` whenever the
block is not busy; BUILD with `L = 996` is never refused for its length. Which name a BUILD gets that is
refused for several reasons, `Busy` first and `OperandMissing` last, is the model's choice (log 9). -/
def Obligations.BuildAbove996IsRefused : Prop :=
  (∀ (n : Arg) (s : State), 996 < n.toNat → ∃ r, exec (.build n) s = .refused r) ∧
  (∀ (n : Arg) (s : State), s.io.busy = false → 996 < n.toNat →
    exec (.build n) s = .refused .lenOverflow) ∧
  (∀ (n : Arg) (s : State), n.toNat ≤ 996 → exec (.build n) s ≠ .refused .lenOverflow)

/-- R83, R94, R203: in which states each command answers a next state, and in which it is refused: IDLE
never; CRC16 while `BUSY` = 1 or with its operand missing; BUILD in these cases and with `L > 996`;
READLINE while `BUSY` = 1; and a command that is refused for one reason only gets that reason's name. An
operand of `n` bytes is missing when fewer bytes of `IBUF` were written since the last command, when one
of its bytes was never written, or when `n` exceeds `IBUF_CAP`. What counts as written is the model's
reading (log 10), and the name where several reasons hold is the model's choice and stands in
`TheFirstReasonIsNamed` (log 9). -/
def Obligations.CommandsAreRefusedExactlyWhereTheSpecSays : Prop :=
  (∀ (i : Instr) (s : State), (∃ t, exec i s = .next t) ∨ ∃ r, exec i s = .refused r) ∧
  (∀ (n : Arg) (s : State), ∃ t, exec (.idle n) s = .next t) ∧
  (∀ (n : Arg) (s : State), (∃ t, exec (.crc16 n) s = .next t) ↔
    s.io.busy = false ∧ n.toNat ≤ s.io.ibufWritten.length ∧
      n.toNat ≤ (Memory.leading s.io.ibuf).length ∧ ∀ c, s.params.ibufCap = some c → n.toNat ≤ c) ∧
  (∀ (n : Arg) (s : State), (∃ t, exec (.build n) s = .next t) ↔
    s.io.busy = false ∧ n.toNat ≤ 996 ∧ n.toNat ≤ s.io.ibufWritten.length ∧
      n.toNat ≤ (Memory.leading s.io.ibuf).length ∧ ∀ c, s.params.ibufCap = some c → n.toNat ≤ c) ∧
  (∀ (n : Arg) (s : State), (∃ t, exec (.readline n) s = .next t) ↔ s.io.busy = false) ∧
  (∀ (n : Arg) (s : State), s.io.busy = true →
    exec (.readline n) s = .refused .busy ∧
    (n.toNat ≤ s.io.ibufWritten.length → n.toNat ≤ (Memory.leading s.io.ibuf).length →
      (∀ c, s.params.ibufCap = some c → n.toNat ≤ c) →
      exec (.crc16 n) s = .refused .busy ∧
      (n.toNat ≤ 996 → exec (.build n) s = .refused .busy))) ∧
  (∀ (n : Arg) (s : State), s.io.busy = false →
    (s.io.ibufWritten.length < n.toNat ∨ (Memory.leading s.io.ibuf).length < n.toNat ∨
      ∃ c, s.params.ibufCap = some c ∧ c < n.toNat) →
    exec (.crc16 n) s = .refused .operandMissing ∧
    (n.toNat ≤ 996 → exec (.build n) s = .refused .operandMissing)) ∧
  (∀ (n : Arg) (s : State), s.io.busy = false → 996 < n.toNat →
    n.toNat ≤ s.io.ibufWritten.length → n.toNat ≤ (Memory.leading s.io.ibuf).length →
    (∀ c, s.params.ibufCap = some c → n.toNat ≤ c) →
    exec (.build n) s = .refused .lenOverflow)

/-! ## CRC16 (40_crc_engine.md) -/

/-- R110 to R117: from every state that meets the invariant, `CRC16` with its operand in `IBUF` answers a
next state, and `10 n + 2` steps later the block has ended the operation with the checksum of
`IBUF[0..n)` in `CRC`; everything else in the block and the host is as it was, and the environment has
moved once a step. The step count is the model's granularity (log 1) and the one move a step its choice
(log 5). -/
def Obligations.Crc16RunsToTheChecksum : Prop :=
  ∀ (n : Arg) (s : State), MachineInv s → s.io.busy = false → undisturbed s = true →
    operandMissing n.toNat s = false →
    ∃ t, exec (.crc16 n) s = .next t ∧
      runFor (10 * n.toNat + 2) t = .next
        { s with
          io := { s.io with busy := false, done := true, arg := n, ibufWritten := [],
                            crcWritten := true },
          ce := { phase := .idle, crc := crc16 ((Memory.leading s.io.ibuf).take n.toNat), idx := n.toNat,
                  bitcnt := if n.toNat = 0 then s.ce.bitcnt else 8 },
          world := s.world.moves (10 * n.toNat + 2) }

/-- R112, R113, R116: the rows of the CRC Engine. Acceptance of CRC16 and the Frame Builder's entry
start it at 0x0000; LOAD exclusive-ors the byte times 256 into the register; SHIFT tests bit 15, shifts
left and conditionally exclusive-ors 0x1021, exactly eight times; DONE ends a stand-alone CRC16 or
returns to the Frame Builder. One row a step is the model's granularity (log 1), and that each step has
exactly one move of the environment is its choice (log 5). -/
def Obligations.CrcEngineRows : Prop :=
  (∀ (n : Arg) (s : State), s.io.busy = false → operandMissing n.toNat s = false →
    exec (.crc16 n) s = .next
      { s with
        io := { s.io with busy := true, done := false, arg := n, ibufWritten := [],
                          crcWritten := true },
        ce := { s.ce with crc := 0x0000#16, idx := 0, phase := .load } }) ∧
  (∀ s : State, undisturbed s = true → s.io.busy = true → s.lr.phase = .idle →
    (s.fb.phase = .crcRun → s.ce.phase = .idle →
      step s = .next { s with ce := { s.ce with crc := 0x0000#16, idx := 0, phase := .load },
                              world := s.world.move }) ∧
    (s.fb.phase = .idle ∨ s.fb.phase = .crcRun →
      (∀ b, s.ce.phase = .load → s.ce.idx < engineLen s →
        Buffer.read (engineBuffer s) s.ce.idx = some b →
        step s = .next { s with ce := { s.ce with crc := s.ce.crc ^^^ (b.setWidth 16 * 256#16),
                                                  bitcnt := 0, phase := .shift },
                                world := s.world.move }) ∧
      (s.ce.phase = .load → s.ce.idx = engineLen s →
        step s = .next { s with ce := { s.ce with phase := .done }, world := s.world.move }) ∧
      (s.ce.phase = .shift → s.ce.bitcnt < 8 →
        step s = .next
          { s with
            ce := { s.ce with
              crc := if s.ce.crc.getLsbD 15 then (s.ce.crc <<< 1) ^^^ 0x1021#16 else s.ce.crc <<< 1,
              bitcnt := s.ce.bitcnt + 1 },
            world := s.world.move }) ∧
      (s.ce.phase = .shift → s.ce.bitcnt = 8 →
        step s = .next { s with ce := { s.ce with idx := s.ce.idx + 1, phase := .load },
                                world := s.world.move })) ∧
    (s.fb.phase = .idle → s.ce.phase = .done →
      step s = .next { s with ce := { s.ce with phase := .idle },
                              io := { s.io with busy := false, done := true },
                              world := s.world.move }) ∧
    (s.fb.phase = .crcRun → s.ce.phase = .done →
      step s = .next { s with ce := { s.ce with phase := .idle },
                              fb := { s.fb with phase := .crcHi },
                              world := s.world.move }))

/-- 40_crc_engine.md section 3, linearity: the checksum of the bytewise exclusive-or of two spans of
equal length is the exclusive-or of their checksums. -/
def Obligations.CrcIsLinear : Prop :=
  ∀ a b : List Byte, a.length = b.length →
    crc16 (List.zipWith (· ^^^ ·) a b) = crc16 a ^^^ crc16 b

/-- 40_crc_engine.md section 3, residue: a span followed by its own checksum, high byte first, has
checksum 0. -/
def Obligations.CrcOfASpanWithItsCrcIsZero : Prop :=
  ∀ m : List Byte, crc16 (m ++ [crcHigh (crc16 m), crcLow (crc16 m)]) = 0#16

/-- 40_crc_engine.md section 2 (R118): the byte-wise algorithm and the bit-serial one give the same
checksum, and the same register after every whole byte. -/
def Obligations.BitSerialFormAgrees : Prop :=
  (∀ (c : CrcWord) (b : Byte), serialByte c b = crcByte c b) ∧
  (∀ data : List Byte, serialCrc16 data = crc16 data)

/-- 40_crc_engine.md R115: the empty span has checksum 0, leading zero bytes are invisible, and the
checksums of the single bytes 01, 80 and FF. -/
def Obligations.CrcCornerCases : Prop :=
  crc16 [] = 0x0000#16 ∧
  (∀ (k : Nat) (m : List Byte), crc16 (List.replicate k 0x00#8 ++ m) = crc16 m) ∧
  crc16 [0x01#8] = 0x1021#16 ∧ crc16 [0x80#8] = 0x9188#16 ∧ crc16 [0xFF#8] = 0x1EF0#16

/-! ## BUILD (41_frame_builder.md) -/

/-- R130 to R140: from every state that meets the invariant, `BUILD` of a mnemonic of at most 996 bytes
answers a next state, and `11 L + 64` steps later the block has ended the operation with the Frame in
`FBUF`; everything else in the block and the host is as it was, and the environment has moved once a
step. The step count is the model's granularity (log 1) and the one move a step its choice (log 5). -/
def Obligations.BuildRunsToTheFrame : Prop :=
  ∀ (n : Arg) (s : State), MachineInv s → s.io.busy = false → undisturbed s = true →
    n.toNat ≤ 996 → operandMissing n.toNat s = false →
    ∃ t, exec (.build n) s = .next t ∧
      runFor (11 * n.toNat + 64) t = .next
        { s with
          io := { s.io with busy := false, done := true, arg := n, ibufWritten := [],
                            crcWritten := true },
          ce := { phase := .idle, crc := crc16 (frameHeader ((Memory.leading s.io.ibuf).take n.toNat)),
                  idx := 5 + n.toNat, bitcnt := 8 },
          fb := { phase := .idle, len := n.toNat + 3, idx := n.toNat,
                  fbuf := buildFrame ((Memory.leading s.io.ibuf).take n.toNat) },
          world := s.world.moves (11 * n.toNat + 64) }

/-- R85, R131, R133 to R137: every field of the Frame that `BUILD` leaves in `FBUF`, byte by byte. That it
takes `11 L + 64` steps is the model's granularity (log 1). -/
def Obligations.BuildWritesEveryFieldOfTheFrame : Prop :=
  ∀ (n : Arg) (s : State), MachineInv s → s.io.busy = false → undisturbed s = true →
    n.toNat ≤ 996 → operandMissing n.toNat s = false →
    ∃ t u, exec (.build n) s = .next t ∧ runFor (11 * n.toNat + 64) t = .next u ∧
      u.io.busy = false ∧ u.io.done = true ∧
      u.fb.len = n.toNat + 3 ∧ frameLen u = n.toNat + 8 ∧
      Buffer.read u.fb.fbuf 0 = some 0x5E#8 ∧ Buffer.read u.fb.fbuf 1 = some 0x50#8 ∧
      Buffer.read u.fb.fbuf 2 = some (BitVec.ofNat 8 (0x30 + (n.toNat + 3) / 100)) ∧
      Buffer.read u.fb.fbuf 3 = some (BitVec.ofNat 8 (0x30 + (n.toNat + 3) / 10 % 10)) ∧
      Buffer.read u.fb.fbuf 4 = some (BitVec.ofNat 8 (0x30 + (n.toNat + 3) % 10)) ∧
      (∀ i, i < n.toNat → Buffer.read u.fb.fbuf (5 + i) = Memory.read s.io.ibuf i) ∧
      u.ce.crc = crc16 (u.fb.fbuf.take (5 + n.toNat)) ∧
      Buffer.read u.fb.fbuf (5 + n.toNat) = some (BitVec.ofNat 8 (u.ce.crc.toNat / 256)) ∧
      Buffer.read u.fb.fbuf (6 + n.toNat) = some (BitVec.ofNat 8 (u.ce.crc.toNat % 256)) ∧
      Buffer.read u.fb.fbuf (7 + n.toNat) = some 0x0D#8

/-- R140: the rows of the Frame Builder. In `CRCRUN` a step is a row of the CRC Engine, which
`CrcEngineRows` states, and the engine's `DONE` leads on to `CRCHI`. One row a step is the model's
granularity (log 1), and that each step has exactly one move of the environment is its choice (log 5). -/
def Obligations.FrameBuilderRows : Prop :=
  (∀ (n : Arg) (s : State), s.io.busy = false → n.toNat ≤ 996 → operandMissing n.toNat s = false →
    exec (.build n) s = .next
      { s with
        io := { s.io with busy := true, done := false, arg := n, ibufWritten := [],
                          crcWritten := true },
        fb := { s.fb with fbuf := [], phase := .lenCalc } }) ∧
  (∀ s : State, undisturbed s = true → s.io.busy = true → s.lr.phase = .idle →
    (s.fb.phase = .lenCalc → step s = .next
      { s with fb := { s.fb with len := s.io.arg.toNat + 3, idx := 0, phase := .mark0 },
               world := s.world.move }) ∧
    (s.fb.phase = .mark0 → step s = .next
      { s with fb := { s.fb with fbuf := s.fb.fbuf ++ [0x5E#8], phase := .mark1 },
               world := s.world.move }) ∧
    (s.fb.phase = .mark1 → step s = .next
      { s with fb := { s.fb with fbuf := s.fb.fbuf ++ [0x50#8], phase := .dig2 },
               world := s.world.move }) ∧
    (s.fb.phase = .dig2 → step s = .next
      { s with fb := { s.fb with fbuf := s.fb.fbuf ++ [BitVec.ofNat 8 (0x30 + s.fb.len / 100)],
                                 phase := .dig1 },
               world := s.world.move }) ∧
    (s.fb.phase = .dig1 → step s = .next
      { s with fb := { s.fb with
                       fbuf := s.fb.fbuf ++ [BitVec.ofNat 8 (0x30 + s.fb.len / 10 % 10)],
                       phase := .dig0 },
               world := s.world.move }) ∧
    (s.fb.phase = .dig0 → step s = .next
      { s with fb := { s.fb with fbuf := s.fb.fbuf ++ [BitVec.ofNat 8 (0x30 + s.fb.len % 10)],
                                 phase := .mnem },
               world := s.world.move }) ∧
    (∀ b, s.fb.phase = .mnem → s.fb.idx < s.io.arg.toNat →
      Buffer.read (Memory.leading s.io.ibuf) s.fb.idx = some b →
      step s = .next { s with fb := { s.fb with fbuf := s.fb.fbuf ++ [b], idx := s.fb.idx + 1 },
                              world := s.world.move }) ∧
    (s.fb.phase = .mnem → s.fb.idx = s.io.arg.toNat → step s = .next
      { s with fb := { s.fb with phase := .crcRun }, world := s.world.move }) ∧
    (s.fb.phase = .crcRun → step s = crcMicro { s with world := s.world.move }) ∧
    (s.fb.phase = .crcRun → s.ce.phase = .done → step s = .next
      { s with ce := { s.ce with phase := .idle }, fb := { s.fb with phase := .crcHi },
               world := s.world.move }) ∧
    (s.fb.phase = .crcHi → step s = .next
      { s with fb := { s.fb with fbuf := s.fb.fbuf ++ [BitVec.ofNat 8 (s.ce.crc.toNat / 256)],
                                 phase := .crcLo },
               world := s.world.move }) ∧
    (s.fb.phase = .crcLo → step s = .next
      { s with fb := { s.fb with fbuf := s.fb.fbuf ++ [BitVec.ofNat 8 (s.ce.crc.toNat % 256)],
                                 phase := .term },
               world := s.world.move }) ∧
    (s.fb.phase = .term → step s = .next
      { s with fb := { s.fb with fbuf := s.fb.fbuf ++ [0x0D#8], phase := .done },
               world := s.world.move }) ∧
    (s.fb.phase = .done → step s = .next
      { s with fb := { s.fb with phase := .idle },
               io := { s.io with busy := false, done := true },
               world := s.world.move }))

/-- 41_frame_builder.md section 2 (R138): the digits of a Frame decode to the number of bytes after
them, the mnemonic can be read back, and two mnemonics have the same Frame only when they are equal. -/
def Obligations.FrameReadsBack : Prop :=
  ∀ m : List Byte, m.length ≤ 996 →
    (buildFrame m).length = m.length + 8 ∧
    (∃ a b c : Byte, (buildFrame m).take 5 = [0x5E#8, 0x50#8, a, b, c] ∧
      0x30 ≤ a.toNat ∧ a.toNat ≤ 0x39 ∧ 0x30 ≤ b.toNat ∧ b.toNat ≤ 0x39 ∧
      0x30 ≤ c.toNat ∧ c.toNat ≤ 0x39 ∧
      (a.toNat - 0x30) * 100 + (b.toNat - 0x30) * 10 + (c.toNat - 0x30) = m.length + 3 ∧
      (buildFrame m).length - 5 = m.length + 3) ∧
    (buildFrame m).getLast? = some 0x0D#8 ∧
    ((buildFrame m).drop 5).take ((buildFrame m).length - 8) = m ∧
    (∀ m' : List Byte, m'.length ≤ 996 → buildFrame m' = buildFrame m → m' = m)

/-- 41_frame_builder.md section 2: a Frame without its terminator has checksum 0. -/
def Obligations.FrameWithoutTerminatorHasZeroCrc : Prop :=
  ∀ m : List Byte, crc16 ((buildFrame m).take (m.length + 7)) = 0#16

/-! ## READLINE (42_line_reader.md) -/

/-- 42_line_reader.md R151: READLINE empties the accumulator, clears `SUCCESS`, latches its argument, and
then samples the clock once into `T_START`; bytes already waiting stay at the head of the receive
stream and are not discarded. That the sample comes one step after the acceptance, with exactly one move
of the environment before it, is the model's choice (log 1, log 5). -/
def Obligations.ReadlineStarts : Prop :=
  ∀ (n : Arg) (s : State), s.io.busy = false → undisturbed s = true →
    ∃ t, exec (.readline n) s = .next t ∧
      t = { s with
            io := { s.io with busy := true, done := false, arg := n, ibufWritten := [],
                              successWritten := true },
            lr := { s.lr with lbuf := [], success := false, timeout := n, phase := .start } } ∧
      step t = .next
        { t with world := s.world.move,
                 lr := { t.lr with tStart := clockNow s.world.move, phase := .check } } ∧
      ∃ arrived, s.world.move.rxq = s.world.rxq ++ arrived

/-- R156: CHECK takes one clock sample, before the poll. Under the spec's `gt` the operation times out
when elapsed > `TIMEOUT` and still polls when elapsed = `TIMEOUT`; under the alternative `ge` of
decision D15 it times out at equality. On timeout `SUCCESS` is 0 and the line is what `LBUF` holds. That
exactly one move of the environment comes before the row is the model's choice (log 5); the boundary and
the place of the check are the spec's own decisions (log 17). -/
def Obligations.LineReaderCheckRow : Prop :=
  ∀ s : State, undisturbed s = true → s.io.busy = true → s.lr.phase = .check →
    (s.params.timeoutCmp = .gt →
      (s.lr.timeout.toNat < (clockNow s.world.move - s.lr.tStart).toNat →
        step s = .next { s with world := s.world.move,
                                lr := { s.lr with success := false, phase := .done } }) ∧
      ((clockNow s.world.move - s.lr.tStart).toNat ≤ s.lr.timeout.toNat →
        step s = .next { s with world := s.world.move, lr := { s.lr with phase := .poll } })) ∧
    (s.params.timeoutCmp = .ge →
      (s.lr.timeout.toNat ≤ (clockNow s.world.move - s.lr.tStart).toNat →
        step s = .next { s with world := s.world.move,
                                lr := { s.lr with success := false, phase := .done } }) ∧
      ((clockNow s.world.move - s.lr.tStart).toNat < s.lr.timeout.toNat →
        step s = .next { s with world := s.world.move, lr := { s.lr with phase := .poll } }))

/-- R152, R155, R165: a waiting byte is received while the accumulator has room; with a full accumulator the
model refuses before reading the byte; with an unbounded one it never refuses; and with nothing waiting
a backoff begins, its start sampled. That exactly one move of the environment comes before the row is
the model's choice (log 5). -/
def Obligations.LineReaderPollRow : Prop :=
  ∀ s : State, undisturbed s = true → s.io.busy = true → s.lr.phase = .poll →
    (s.world.move.rxq ≠ [] →
      (s.params.lineCap = none ∨ (∃ c, s.params.lineCap = some c ∧ lineLen s < c) →
        step s = .next { s with world := s.world.move, lr := { s.lr with phase := .recv } }) ∧
      (s.params.lineCap = some (lineLen s) → step s = .refused .lineCapExceeded)) ∧
    (s.world.move.rxq = [] →
      step s = .next { s with world := s.world.move,
                              lr := { s.lr with tBk := clockNow s.world.move,
                                                phase := .backoff } })

/-- R153, R154, R157: the oldest waiting byte is removed from the receive stream and appended unchanged,
whatever its value; exactly 0x0D stops the operation with `SUCCESS` = 1 and the accumulated bytes, the
terminator included, and the very next step returns, with no poll, backoff or clock sample between;
every other byte goes back to CHECK. That exactly one move of the environment comes before each of the
two rows is the model's choice (log 5), and that they are two steps its granularity (log 1). -/
def Obligations.LineReaderReceiveRow : Prop :=
  ∀ (s : State) (b : Byte) (rest : List Byte), undisturbed s = true → s.io.busy = true →
    s.lr.phase = .recv → s.world.move.rxq = b :: rest →
    (b = 0x0D#8 → ∃ t, step s = .next t ∧
      t = { s with world := { s.world.move with rxq := rest },
                   lr := { s.lr with lbuf := s.lr.lbuf ++ [b], success := true, phase := .done } } ∧
      step t = .next { t with lr := { t.lr with phase := .idle },
                              io := { t.io with busy := false, done := true },
                              world := t.world.move }) ∧
    (b ≠ 0x0D#8 → step s = .next
      { s with world := { s.world.move with rxq := rest },
               lr := { s.lr with lbuf := s.lr.lbuf ++ [b], phase := .check } })

/-- R155, R158: a backoff is ended by time alone: whatever waits in the receive stream and whatever the
deadline, it goes on while less than `BACKOFF_MS` have passed since it began, and then goes back to
CHECK. That exactly one move of the environment comes before the row is the model's choice (log 5). -/
def Obligations.LineReaderBackoffRow : Prop :=
  ∀ s : State, undisturbed s = true → s.io.busy = true → s.lr.phase = .backoff →
    ((clockNow s.world.move - s.lr.tBk).toNat < s.params.backoffMs →
      step s = .next { s with world := s.world.move }) ∧
    (s.params.backoffMs ≤ (clockNow s.world.move - s.lr.tBk).toNat →
      step s = .next { s with world := s.world.move, lr := { s.lr with phase := .check } })

/-- 60_exceptions.md R202, R206: under `gt` a timeout is a normal return, two steps from the CHECK that sees
it: `SUCCESS` = 0, `BUSY` = 0, `DONE` = 1, the partial line kept, and `CRC`, `FBUF`, `IBUF` and every
unread byte untouched. That it takes two steps is the model's granularity (log 1), and one move of the
environment in each its choice (log 5); the CHECK under `ge` stands in `LineReaderCheckRow`. -/
def Obligations.TimeoutIsANormalReturn : Prop :=
  ∀ s : State, undisturbed s = true → s.io.busy = true → s.lr.phase = .check →
    s.params.timeoutCmp = .gt →
    s.lr.timeout.toNat < (clockNow s.world.move - s.lr.tStart).toNat →
    runFor 2 s = .next
      { s with world := s.world.moves 2,
               lr := { s.lr with success := false, phase := .idle },
               io := { s.io with busy := false, done := true } }

/-- R150 to R154, R161: whenever a terminator already waits behind `pre`, READLINE answers a next state,
and if the clock stays within the timeout from the sample of START to that of the last CHECK, whatever
arrives meanwhile, it ends `3 (|pre| + 1) + 2` steps later with that line and `SUCCESS` = 1; the bytes
behind the terminator stay in the receive stream, ahead of those that arrived; everything else is as it
was. The step count is the model's granularity (log 1) and the one move of the environment a step its
choice (log 5). -/
def Obligations.ReadlineReturnsTheWaitingLine : Prop :=
  ∀ (n : Arg) (s : State) (pre rest : List Byte) (ms more : List EnvMove),
    s.io.busy = false → undisturbed s = true →
    s.world.rxq = pre ++ 0x0D#8 :: rest → 0x0D#8 ∉ pre →
    (∀ c, s.params.lineCap = some c → pre.length < c) →
    s.world.env = ms ++ more → ms.length = 3 * (pre.length + 1) + 2 →
    withinBudget s.params.timeoutCmp (totalTicks ((ms.drop 1).take (3 * pre.length + 1))) n.toNat
      = true →
    ∃ t, exec (.readline n) s = .next t ∧
      runFor (3 * (pre.length + 1) + 2) t = .next
        { s with
          io := { s.io with busy := false, done := true, arg := n, ibufWritten := [],
                            successWritten := true },
          lr := { s.lr with phase := .idle, lbuf := pre ++ [0x0D#8], success := true, timeout := n,
                            tStart := BitVec.ofNat 32 (s.world.clock + totalTicks (ms.take 1)) },
          world := { s.world with rxq := rest ++ allArrivals ms,
                                  clock := s.world.clock + totalTicks ms, env := more } }

/-- R163, bounded: if the clock advances with every move of the environment and does not run through a
whole wrap, READLINE answers a next state and has returned within `timeout_ms` + `BACKOFF_MS` + 4 steps,
whatever arrives, with a line that has a terminator exactly when `SUCCESS` = 1, and then as its last
byte only; or, with a finite `LINE_CAP` only, it has been refused as `LineCapExceeded`. The bound in
steps rests on the model's granularity (log 1) and on its one move of the environment a step (log 5). -/
def Obligations.ReadlineTerminates : Prop :=
  ∀ (n : Arg) (s : State) (ms more : List EnvMove), MachineInv s →
    s.io.busy = false → undisturbed s = true →
    s.world.env = ms ++ more → ms.length = n.toNat + s.params.backoffMs + 3 →
    (∀ m ∈ ms, 1 ≤ m.ticks) → totalTicks ms < 2 ^ 32 →
    ∃ t, exec (.readline n) s = .next t ∧
      ∃ k, k ≤ n.toNat + s.params.backoffMs + 4 ∧
        ((∃ u, runFor k t = .next u ∧ u.io.busy = false ∧ u.io.done = true ∧
            (u.lr.success = true →
              ∃ body, u.lr.lbuf = body ++ [0x0D#8] ∧ 0x0D#8 ∉ body) ∧
            (u.lr.success = false → 0x0D#8 ∉ u.lr.lbuf)) ∨
         (s.params.lineCap ≠ none ∧ runFor k t = .refused .lineCapExceeded))

/-- 42_line_reader.md R164 item (2): with `timeout_ms` = 2^32 - 1 under `gt` and no terminator ever
waiting, READLINE answers a next state and is still running after every number of the environment's
moves. That a step uses exactly one of the moves `ms` is the model's choice (log 5), and one row a step
its granularity (log 1). -/
def Obligations.LongestTimeoutNeverExpires : Prop :=
  ∀ (s : State) (ms more : List EnvMove), s.io.busy = false → undisturbed s = true →
    s.params.timeoutCmp = .gt → s.params.lineCap = none →
    s.world.env = ms ++ more → 0x0D#8 ∉ s.world.rxq ++ allArrivals ms →
    ∃ t u, exec (.readline 0xFFFFFFFF#32) s = .next t ∧ runFor ms.length t = .next u ∧
      u.io.busy = true ∧ u.io.done = false

/-- 42_line_reader.md R159 items (2), (3), (5): a step that ends READLINE either reads 0x0D, or is a
CHECK whose clock sample lies beyond the timeout, elapsed > `TIMEOUT`, under the spec's `gt`; under the
alternative `ge` of decision D15, which the model carries (log 17), elapsed >= `TIMEOUT`. Never earlier. -/
def Obligations.ReadlineEndsOnlyByTerminatorOrTimeout : Prop :=
  ∀ s t : State, MachineInv s → step s = .next t → s.lr.phase ≠ .idle → s.lr.phase ≠ .done →
    t.lr.phase = .done →
    (t.lr.success = true ∧ s.lr.phase = .recv ∧ t.lr.lbuf = s.lr.lbuf ++ [0x0D#8] ∧
      0x0D#8 ∉ s.lr.lbuf) ∨
    (t.lr.success = false ∧ s.lr.phase = .check ∧ t.lr.lbuf = s.lr.lbuf ∧ 0x0D#8 ∉ t.lr.lbuf ∧
      (s.params.timeoutCmp = .gt →
        s.lr.timeout.toNat < (clockNow t.world - s.lr.tStart).toNat) ∧
      (s.params.timeoutCmp = .ge →
        s.lr.timeout.toNat ≤ (clockNow t.world - s.lr.tStart).toNat))

/-- 42_line_reader.md R159 items (1), (4): while READLINE runs, each step only moves bytes from the head
of the receive stream to the end of the line and lets new ones arrive behind: none is skipped,
duplicated or reordered. -/
def Obligations.LineIsAContiguousRunOfTheStream : Prop :=
  ∀ s t : State, undisturbed s = true → s.io.busy = true → s.lr.phase ≠ .idle →
    step s = .next t →
    (∃ arrived, t.lr.lbuf ++ t.world.rxq = s.lr.lbuf ++ s.world.rxq ++ arrived) ∧
    (∃ taken, t.lr.lbuf = s.lr.lbuf ++ taken ∧ taken.length ≤ 1)

/-- 20_memory.md R62, 42_line_reader.md R164: elapsed time is right across a wrap of the clock, as long
as the true elapsed time is below 2^32 ms. -/
def Obligations.ElapsedSurvivesAClockWrap : Prop :=
  ∀ (w : World) (d : Nat), d < 2 ^ 32 →
    (elapsed (clockNow { w with clock := w.clock + d }) (clockNow w)).toNat = d

/-! ## Whole-machine rules -/

/-- 10_state.md R32, R25, R246, 42_line_reader.md R167: with no reset due, a step changes the Frame
Builder's registers only when a BUILD runs or is pending, the CRC Engine's only when a CRC16 or a BUILD
runs or is pending, and the Line Reader's, `SUCCESS` among them, only when a READLINE runs or is
pending. -/
def Obligations.ResultsStandUntilTheNextOfTheirKind : Prop :=
  ∀ s t : State, step s = .next t → (∀ rest, hostDue s ≠ some (.reset, rest)) →
    (s.fb.phase = .idle → (∀ w n, s.io.cmd = some w → decodeWord w ≠ .build n) → t.fb = s.fb) ∧
    (s.fb.phase = .idle → s.ce.phase = .idle →
      (∀ w n, s.io.cmd = some w → decodeWord w ≠ .crc16 n) → t.ce = s.ce) ∧
    (s.lr.phase = .idle → (∀ w n, s.io.cmd = some w → decodeWord w ≠ .readline n) → t.lr = s.lr)

/-- 10_state.md R26: `BUSY` rises only when a pending CRC16, BUILD or READLINE is accepted, and `DONE`
falls then; when `BUSY` falls, `DONE` rises, unless the host resets the block. -/
def Obligations.StatusFollowsTheOperation : Prop :=
  ∀ s t : State, step s = .next t →
    (s.io.busy = false → t.io.busy = true →
      t.io.done = false ∧ ∃ w n, s.io.cmd = some w ∧
        (decodeWord w = .crc16 n ∨ decodeWord w = .build n ∨ decodeWord w = .readline n)) ∧
    (s.io.busy = true → t.io.busy = false →
      t.io.done = true ∨ ∃ rest, hostDue s = some (.reset, rest))

/-- 20_memory.md R51, R66: while an operation runs no step changes `IBUF` or the latched operand, unless
the host resets the block. -/
def Obligations.OperandStandsWhileBusy : Prop :=
  ∀ s t : State, s.io.busy = true → step s = .next t →
    (∀ rest, hostDue s ≠ some (.reset, rest)) →
    t.io.ibuf = s.io.ibuf ∧ t.io.arg = s.io.arg

/-- 20_memory.md R60, R61: the receive stream is a queue to which the environment appends in any step,
whatever the block does: in every step bytes are added at its tail only, those of one move of the
environment (log 5, the model's choice), and at most one is taken, from its head, by a Line Reader that
receives or by a host that drains the transport. -/
def Obligations.ReceiveStreamIsAQueue : Prop :=
  ∀ s t : State, step s = .next t →
    ∃ taken arrived, s.world.move.rxq = s.world.rxq ++ arrived ∧
      s.world.rxq ++ arrived = taken ++ t.world.rxq ∧ taken.length ≤ 1 ∧
      (taken ≠ [] → s.lr.phase = .recv ∨ ∃ rest, hostDue s = some (.takeByte, rest))

/-- 20_memory.md R59, 41_frame_builder.md R141: no operation of the block transmits: a step adds to the
transmit stream only when the host's own write is due, and then exactly its bytes, at the tail: for a
write of the Frame those of `FBUF`. That a write hands on all its bytes, in one step, and at any time, is
the model's choice where R59 and N13 leave it open (log 19), and so is that a write of the Frame while
BUILD runs hands on free bytes, their number within the 11 bits of `FRAME_LEN` (log 32). -/
def Obligations.OnlyTheHostTransmits : Prop :=
  ∀ s t : State, step s = .next t →
    t.world.txq = s.world.txq ∨
    ∃ a rest bs, hostDue s = some (a, rest) ∧
      (a = .transmit bs ∨ a = .transmitFrame ∧ (s.fb.phase = .idle → bs = s.fb.fbuf) ∧
        (s.fb.phase ≠ .idle → bs.length < 2 ^ 11)) ∧
      t.world.txq = s.world.txq ++ bs

/-- 20_memory.md R62, 10_state.md R28: no step turns the clock back, and none advances it but by a move of
the environment: neither the block nor the host writes it. That each step has exactly one such move is
the model's choice (log 5). -/
def Obligations.ClockNeverRunsBack : Prop :=
  ∀ s t : State, step s = .next t →
    s.world.clock ≤ t.world.clock ∧ t.world.clock = s.world.move.clock

/-- 00_scope.md R8, 10_state.md R29: the parameters are not state: no step changes them (log 7). -/
def Obligations.ParametersNeverChange : Prop :=
  ∀ s t : State, step s = .next t → t.params = s.params

/-- 40_crc_engine.md R111, R117, 41_frame_builder.md R138: no earlier computation influences a later
one: two states that agree on the operand bytes, whatever else they hold, get the same checksum from
CRC16 and the same Frame from BUILD. The runs of `10 n + 2` and `11 n + 64` steps are the model's
granularity (log 1). -/
def Obligations.OperationsArePureFunctionsOfTheirOperand : Prop :=
  ∀ (n : Arg) (s s' : State), MachineInv s → MachineInv s' → s.io.busy = false → s'.io.busy = false →
    undisturbed s = true → undisturbed s' = true →
    operandMissing n.toNat s = false → operandMissing n.toNat s' = false →
    (∀ i, i < n.toNat → Memory.read s.io.ibuf i = Memory.read s'.io.ibuf i) →
    (∃ t t' u u', exec (.crc16 n) s = .next t ∧ exec (.crc16 n) s' = .next t' ∧
      runFor (10 * n.toNat + 2) t = .next u ∧ runFor (10 * n.toNat + 2) t' = .next u' ∧
      u.ce.crc = u'.ce.crc) ∧
    (n.toNat ≤ 996 → ∃ t t' u u', exec (.build n) s = .next t ∧ exec (.build n) s' = .next t' ∧
      runFor (11 * n.toNat + 64) t = .next u ∧ runFor (11 * n.toNat + 64) t' = .next u' ∧
      u.fb.fbuf = u'.fb.fbuf ∧ u.ce.crc = u'.ce.crc)

/-! ## The host (10_state.md R26, R30; 60_exceptions.md R203, R218) -/

/-- 10_state.md R26, R30, 93_implementation_defined.md U6: a host read of `CRC` or `SUCCESS` before the first
operation that writes it, or of a byte at or above a buffer's length, is refused as `UnwrittenRead`; a
read of a value that stands hands it back and changes nothing else; and a length may be read from reset
on. That a result may be read while an operation of another kind runs is the model's reading of R32
(log 31). -/
def Obligations.UnwrittenResultsAreRefused : Prop :=
  ∀ s : State,
    (s.io.crcWritten = false → hostAct (.readReg .crc) s = .refused .unwrittenRead) ∧
    (s.io.crcWritten = true → s.ce.phase = .idle → s.fb.phase = .idle →
      hostAct (.readReg .crc) s = .next
        { s with host := { s.host with got := s.host.got ++ [s.ce.crc.toNat] } }) ∧
    (s.io.successWritten = false → hostAct (.readReg .success) s = .refused .unwrittenRead) ∧
    (s.io.successWritten = true → hostAct (.readReg .success) s = .next
      { s with host := { s.host with got := s.host.got ++ [s.lr.success.toNat] } }) ∧
    (∀ i, frameLen s ≤ i → hostAct (.readReg (.fbuf i)) s = .refused .unwrittenRead) ∧
    (∀ i b, s.fb.phase = .idle → Buffer.read s.fb.fbuf i = some b →
      hostAct (.readReg (.fbuf i)) s = .next
        { s with host := { s.host with got := s.host.got ++ [b.toNat] } }) ∧
    (∀ i, lineLen s ≤ i → hostAct (.readReg (.lbuf i)) s = .refused .unwrittenRead) ∧
    (∀ i b, s.lr.phase = .idle → Buffer.read s.lr.lbuf i = some b →
      hostAct (.readReg (.lbuf i)) s = .next
        { s with host := { s.host with got := s.host.got ++ [b.toNat] } }) ∧
    (s.fb.phase = .idle → hostAct (.readReg .frameLen) s = .next
      { s with host := { s.host with got := s.host.got ++ [frameLen s] } }) ∧
    (s.lr.phase = .idle → hostAct (.readReg .lineLen) s = .next
      { s with host := { s.host with got := s.host.got ++ [lineLen s] } })

/-- 10_state.md R26: in every state, whether or not an operation runs, a host read of `STATUS` hands back
`BUSY` in bit 0, `DONE` in bit 1 and `SUCCESS` in bit 2, and a read of `BUSY` or `DONE` that field;
nothing else changes. Before the first READLINE `SUCCESS` has no value (R30); that bit 2 of the whole
register is a free value then, and not a reason to refuse the other two, is the model's choice (log 28). -/
def Obligations.StatusMayBeReadAtAnyTime : Prop :=
  ∀ s : State,
    hostAct (.readReg .busy) s = .next
      { s with host := { s.host with got := s.host.got ++ [if s.io.busy then 1 else 0] } } ∧
    hostAct (.readReg .done) s = .next
      { s with host := { s.host with got := s.host.got ++ [if s.io.done then 1 else 0] } } ∧
    ∃ bit2 : Bool, (s.io.successWritten = true → bit2 = s.lr.success) ∧
      hostAct (.readReg .status) s = .next
        { s with host := { s.host with got := s.host.got ++
            [(if s.io.busy then 1 else 0) + (if s.io.done then 2 else 0) +
              (if bit2 then 4 else 0)] } }

/-- 10_state.md R26, 20_memory.md R50, R51, 00_scope.md section 5: while `BUSY` = 0 the host may write any bytes
of `IBUF`, in any order and again: a write sets the bytes it names, keeps every other byte and everything
else, and adds to the bytes written since the last command; the operand `IBUF[0..n)` holds its bytes
exactly when each of them was written; and two pieces of an operand, written in either order after a
command, make it up. That several bytes are written in one step and what counts as written is the
model's reading (log 10), and that bytes beyond `IBUF_CAP` are kept its choice (log 11). -/
def Obligations.HostWritesFillTheOperand : Prop :=
  ∀ s : State, MachineInv s → s.io.busy = false →
    (∀ (i : Nat) (bs : List Byte), ∃ t, hostAct (.writeIbuf i bs) s = .next t ∧
      (∀ j, i ≤ j → j < i + bs.length → Memory.read t.io.ibuf j = bs[j - i]?) ∧
      (∀ j, j < i ∨ i + bs.length ≤ j → Memory.read t.io.ibuf j = Memory.read s.io.ibuf j) ∧
      (∀ j, j ∈ t.io.ibufWritten ↔ (i ≤ j ∧ j < i + bs.length) ∨ j ∈ s.io.ibufWritten) ∧
      t = { s with io := { s.io with ibuf := t.io.ibuf, ibufWritten := t.io.ibufWritten } }) ∧
    (∀ n, n ≤ (Memory.leading s.io.ibuf).length ↔
      ∀ i < n, Memory.read s.io.ibuf i ≠ none) ∧
    (∀ i, i < (Memory.leading s.io.ibuf).length →
      Buffer.read (Memory.leading s.io.ibuf) i = Memory.read s.io.ibuf i) ∧
    (s.io.ibufWritten = [] → ∀ xs ys : List Byte, ∃ t u t' u',
      hostAct (.writeIbuf 0 xs) s = .next t ∧ hostAct (.writeIbuf xs.length ys) t = .next u ∧
      hostAct (.writeIbuf xs.length ys) s = .next t' ∧ hostAct (.writeIbuf 0 xs) t' = .next u' ∧
      u.io.ibufWritten.length = (xs ++ ys).length ∧ u'.io.ibufWritten.length = (xs ++ ys).length ∧
      (Memory.leading u.io.ibuf).take (xs ++ ys).length = xs ++ ys ∧
      (Memory.leading u'.io.ibuf).take (xs ++ ys).length = xs ++ ys)

/-- R91, R92, R219, R8: a line stands for the blocked host's moves of R91's table: CRC16 and BUILD write
their bytes to `IBUF` from index 0 on and then their word with the number of bytes to `CMD`, and READLINE
and IDLE write theirs. That the word of an IDLE line has `ARG` = 0, where R91 gives only `OP` = 00, is the
model's choice (log 34), and a line of 2^32 bytes or more has no word in R91 (log 29). `EXCHANGE` stands
for BUILD, then the host's write of the Frame, then READLINE, in that order; the write, whenever no BUILD
runs, hands exactly `FBUF[0..FRAME_LEN)` to the transport and changes nothing else; and a cycle is the
exchange of `MOD` and then that of the status mnemonic, for the timeouts that R8 allows and no others. The
model's choices: that the host is a queue of blocked moves (log 4), that its write hands on all the bytes
in one step (log 19), that `FBUF` still holds the Frame after it (log 30), and that timeouts R8 does not
allow have no cycle (log 24). A write while BUILD runs stands in `ResultsInTheMakingReadAsFreeValues`
(log 32). -/
def Obligations.ExchangeIsBuildWriteReadline : Prop :=
  (∀ bytes : List Byte, bytes.length < 2 ^ 32 →
    Line.moves (.crc16 bytes) =
      [{ wait := .whenIdle, act := .writeIbuf 0 bytes },
       { wait := .whenIdle, act := .writeCmd (BitVec.ofNat 34 (0x100000000 + bytes.length)) }] ∧
    Line.moves (.build bytes) =
      [{ wait := .whenIdle, act := .writeIbuf 0 bytes },
       { wait := .whenIdle, act := .writeCmd (BitVec.ofNat 34 (0x200000000 + bytes.length)) }]) ∧
  (∀ t : Arg, Line.moves (.readline t) =
    [{ wait := .whenIdle, act := .writeCmd (BitVec.ofNat 34 (0x300000000 + t.toNat)) }]) ∧
  Line.moves .idle = [{ wait := .whenIdle, act := .writeCmd 0#34 }] ∧
  (∀ (bytes : List Byte) (t : Arg),
    Line.moves (.exchange bytes t) =
      Line.moves (.build bytes) ++ [{ wait := .whenIdle, act := .transmitFrame }] ++
        Line.moves (.readline t)) ∧
  (∀ s : State, s.fb.phase = .idle → hostAct .transmitFrame s =
    .next { s with world := { s.world with txq := s.world.txq ++ s.fb.fbuf } }) ∧
  (∀ p : HostParams,
    (p.tMode.toNat < p.tStatus.toNat → ∃ lines, hostCycle p = some lines ∧
      programMoves lines =
        Line.moves (.exchange [0x4D#8, 0x4F#8, 0x44#8] p.tMode) ++
          Line.moves (.exchange p.statusMnemonic p.tStatus)) ∧
    (p.tStatus.toNat ≤ p.tMode.toNat → hostCycle p = none))

/-- 70_reset_and_hazards.md R230, 10_state.md R30: reset, whenever it is applied, puts every phase to
`IDLE`, `BUSY` and `DONE` to 0, empties the buffers, leaves `CRC` and `SUCCESS` unwritten and no command
pending, and touches neither the transport nor the clock. That it leaves the host's remaining moves and
the parameters, and gives up a pending command, is the model's reading (log 21). -/
def Obligations.ResetAbandonsTheOperation : Prop :=
  ∀ s : State, ∃ t, hostAct .reset s = .next t ∧
    t.ce.phase = .idle ∧ t.fb.phase = .idle ∧ t.lr.phase = .idle ∧
    t.io.busy = false ∧ t.io.done = false ∧ t.io.cmd = none ∧
    t.io.ibuf = [] ∧ t.io.ibufWritten = [] ∧ frameLen t = 0 ∧ lineLen t = 0 ∧
    t.io.crcWritten = false ∧ t.io.successWritten = false ∧
    t.world = s.world ∧ t.host = s.host ∧ t.params = s.params

/-- 10_state.md R30: the state after reset: phases `IDLE`, `BUSY` = `DONE` = 0, buffers empty, and a host
read of `CRC`, `SUCCESS` or a buffer byte refused, while both lengths read 0. -/
def Obligations.ResetStateHoldsNoResult : Prop :=
  State.reset.ce.phase = .idle ∧ State.reset.fb.phase = .idle ∧ State.reset.lr.phase = .idle ∧
  State.reset.io.cmd = none ∧ State.reset.io.busy = false ∧ State.reset.io.done = false ∧
  State.reset.io.ibuf = [] ∧ State.reset.fb.fbuf = [] ∧ State.reset.lr.lbuf = [] ∧
  hostRead .crc State.reset = .refused .unwrittenRead ∧
  hostRead .success State.reset = .refused .unwrittenRead ∧
  (∀ i, hostRead (.fbuf i) State.reset = .refused .unwrittenRead) ∧
  (∀ i, hostRead (.lbuf i) State.reset = .refused .unwrittenRead) ∧
  (∃ t, hostRead .frameLen State.reset = .next t ∧ t.host.got = [0]) ∧
  (∃ t, hostRead .lineLen State.reset = .next t ∧ t.host.got = [0])

/-! ## The invariant -/

/-- The state after reset meets the invariant. Where the invariant asks for a value of a register to which
R30 gives none (`SUCCESS` = 0, `CRC_BITCNT`, `LEN` and `FB_IDX` in range), the statement rests on the
zeros the model chose for `State.reset` (log 8). -/
def Obligations.ResetMeetsTheInvariant : Prop := MachineInv State.reset

/-- Every step keeps the invariant: at most one unit is active; `CRC` and `FBUF` hold, in every phase,
the checksum and the Frame as far as the operation has come; a line has a terminator exactly when it
succeeded, as its last byte only (10_state.md R20, 40_crc_engine.md R116, 41_frame_builder.md R138,
R140, 42_line_reader.md R159). -/
def Obligations.EveryStepKeepsTheInvariant : Prop :=
  ∀ s t : State, MachineInv s → step s = .next t → MachineInv t

/-- R200: the block raises no fault: from a state that meets the invariant no step faults, and the Line
Reader never reads an empty receive stream. -/
def Obligations.NoStepFaults : Prop :=
  ∀ s : State, MachineInv s →
    (∀ f, step s ≠ .fault f) ∧
    (undisturbed s = true → s.io.busy = true → step s ≠ .refused .nothingWaiting)

/-- 10_state.md R21, R22, R26: the counters the model holds as naturals fit the widths the spec gives
their registers (log 12), and a Frame has 8 to 1004 bytes once built. -/
def Obligations.CountersFitTheirRegisters : Prop :=
  ∀ s : State, MachineInv s →
    s.ce.bitcnt < 2 ^ 4 ∧ s.fb.len < 2 ^ 10 ∧ s.fb.idx < 2 ^ 10 ∧ frameLen s ≤ 1004 ∧
    (s.fb.phase = .idle → frameLen s = 0 ∨ 8 ≤ frameLen s)

/-! ## Further statements: the fields of a Frame, two rows as functions, the order of refusals, the host -/

/-- R54, R133, R134, R135, R137: for every mnemonic that BUILD may be given, each byte of its Frame: the
marker, the three digits of `L + 3`, the mnemonic unchanged, the checksum of what precedes it with the
high byte at the lower index, and one terminator with nothing after it. -/
def Obligations.TheFrameHasItsFields : Prop :=
  ∀ m : List Byte, m.length ≤ 996 →
    Buffer.read (buildFrame m) 0 = some 0x5E#8 ∧ Buffer.read (buildFrame m) 1 = some 0x50#8 ∧
    Buffer.read (buildFrame m) 2 = some (BitVec.ofNat 8 (0x30 + (m.length + 3) / 100)) ∧
    Buffer.read (buildFrame m) 3 = some (BitVec.ofNat 8 (0x30 + (m.length + 3) / 10 % 10)) ∧
    Buffer.read (buildFrame m) 4 = some (BitVec.ofNat 8 (0x30 + (m.length + 3) % 10)) ∧
    (m.length + 3) / 100 ≤ 9 ∧
    (∀ i, i < m.length → Buffer.read (buildFrame m) (5 + i) = Buffer.read m i) ∧
    Buffer.read (buildFrame m) (5 + m.length) =
      some ((crc16 ((buildFrame m).take (5 + m.length))).extractLsb' 8 8) ∧
    Buffer.read (buildFrame m) (6 + m.length) =
      some ((crc16 ((buildFrame m).take (5 + m.length))).extractLsb' 0 8) ∧
    Buffer.read (buildFrame m) (7 + m.length) = some 0x0D#8 ∧
    ∀ i, 7 + m.length < i → Buffer.read (buildFrame m) i = none

/-- R165: when a byte is available and `LINE_LEN` = `LINE_CAP`, POLL is refused before the byte is read;
with an unbounded accumulator it never is; and with room it goes on to the receive, the byte still
waiting. -/
def Obligations.FullAccumulatorIsRefused : Prop :=
  ∀ s : State,
    (s.world.rxq ≠ [] → s.params.lineCap = some (lineLen s) →
      lrPoll s = .refused .lineCapExceeded) ∧
    (s.params.lineCap = none → lrPoll s ≠ .refused .lineCapExceeded) ∧
    (∀ c, s.world.rxq ≠ [] → s.params.lineCap = some c → lineLen s < c →
      lrPoll s = .next { s with lr := { s.lr with phase := .recv } })

/-- R154: exactly when the byte just appended equals 0x0D in all 8 bits, the receive ends the operation
with `SUCCESS` = 1 and the accumulated bytes, the terminator included; and the row that then returns
looks neither at the transport nor at the clock. -/
def Obligations.ReceivedTerminatorStops : Prop :=
  ∀ (s : State) (b : Byte) (rest : List Byte), s.lr.phase = .recv → s.world.rxq = b :: rest →
    ∃ t, lrMicro s = .next t ∧ t.lr.lbuf = s.lr.lbuf ++ [b] ∧ t.world.rxq = rest ∧
      (t.lr.phase = .done ↔ b = 0x0D#8) ∧
      (b = 0x0D#8 → t.lr.success = true ∧
        ∀ w : World, lrMicro { t with world := w } = .next
          { t with world := w, lr := { t.lr with phase := .idle },
                   io := { t.io with busy := false, done := true } }) ∧
      (b ≠ 0x0D#8 → t.lr.phase = .check ∧ t.lr.success = s.lr.success)

/-- The model's choice (log 9), where R83 ranks no refusals: a command that meets several reasons is
refused under the first of `Busy`, `LenOverflow`, `OperandMissing`. -/
def Obligations.TheFirstReasonIsNamed : Prop :=
  (∀ (n : Arg) (s : State), s.io.busy = true →
    exec (.crc16 n) s = .refused .busy ∧ exec (.build n) s = .refused .busy ∧
    exec (.readline n) s = .refused .busy) ∧
  (∀ (n : Arg) (s : State), s.io.busy = false → 996 < n.toNat →
    exec (.build n) s = .refused .lenOverflow)

/-- 10_state.md R26: a read of a result while the operation that makes it runs answers a next state and
changes nothing but what the host has got; R26 gives it no valid value, so the value is free within the
register's width and `LINE_CAP` (the model's choice, log 31). In the same way a host's write of `FBUF` to
the transport while BUILD runs hands on some bytes, their number within the width of `FRAME_LEN` (the
model's choice, log 32). -/
def Obligations.ResultsInTheMakingReadAsFreeValues : Prop :=
  ∀ s : State,
    (s.io.crcWritten = true → s.ce.phase ≠ .idle ∨ s.fb.phase ≠ .idle →
      ∃ v : CrcWord, hostAct (.readReg .crc) s = .next
        { s with host := { s.host with got := s.host.got ++ [v.toNat] } }) ∧
    (s.fb.phase ≠ .idle → ∃ v < 2 ^ 11, hostAct (.readReg .frameLen) s = .next
      { s with host := { s.host with got := s.host.got ++ [v] } }) ∧
    (s.lr.phase ≠ .idle → ∃ v, (∀ c, s.params.lineCap = some c → v ≤ c) ∧
      hostAct (.readReg .lineLen) s = .next
        { s with host := { s.host with got := s.host.got ++ [v] } }) ∧
    (∀ i, s.fb.phase ≠ .idle → i < frameLen s → ∃ v : Byte,
      hostAct (.readReg (.fbuf i)) s = .next
        { s with host := { s.host with got := s.host.got ++ [v.toNat] } }) ∧
    (∀ i, s.lr.phase ≠ .idle → i < lineLen s → ∃ v : Byte,
      hostAct (.readReg (.lbuf i)) s = .next
        { s with host := { s.host with got := s.host.got ++ [v.toNat] } }) ∧
    (s.fb.phase ≠ .idle → ∃ bs : List Byte, bs.length < 2 ^ 11 ∧
      hostAct .transmitFrame s = .next
        { s with world := { s.world with txq := s.world.txq ++ bs } })

/-- 10_state.md R26, 20_memory.md R66, 60_exceptions.md R218: the host moves the interface forbids are
refused: a write of `IBUF` while `BUSY` = 1; a call of `T.avail` or `T.read` while READLINE runs; a read
of the write-only `CMD` or `IBUF`; a write of a read-only register. That they are refused under these
names is the model's reading (log 13, log 14). -/
def Obligations.ForbiddenHostMovesAreRefused : Prop :=
  ∀ s : State,
    (∀ i bs, s.io.busy = true → hostAct (.writeIbuf i bs) s = .refused .onlyWhileIdle) ∧
    (s.lr.phase ≠ .idle → hostAct .pollAvail s = .refused .onlyWhileIdle ∧
      hostAct .takeByte s = .refused .onlyWhileIdle) ∧
    hostAct (.readReg .cmd) s = .refused .writeOnly ∧
    (∀ i, hostAct (.readReg (.ibuf i)) s = .refused .writeOnly) ∧
    (∀ r, hostAct (.writeReg r) s = .refused .readOnly)

/-- 20_memory.md R57, R58, R59, 93_implementation_defined.md U7: the host's calls of the transport:
`T.avail` hands back whether a byte waits and changes nothing; `T.read` hands back the oldest byte and
removes it, and is refused when nothing waits; `T.write` appends its bytes, first byte first. That the
first two are answered while CRC16 or BUILD runs, although `BUSY` = 1, is the model's reading of R218,
which forbids them in its row READLINE (log 13); that `T.write` appends all its bytes in one step,
whatever runs, is its choice (log 19). -/
def Obligations.HostCallsOfTheTransport : Prop :=
  ∀ s : State,
    (s.lr.phase = .idle → hostAct .pollAvail s = .next
      { s with host := { s.host with
          got := s.host.got ++ [if s.world.rxq = [] then 0 else 1] } }) ∧
    (∀ b rest, s.lr.phase = .idle → s.world.rxq = b :: rest → hostAct .takeByte s = .next
      { s with world := { s.world with rxq := rest },
               host := { s.host with got := s.host.got ++ [b.toNat] } }) ∧
    (s.lr.phase = .idle → s.world.rxq = [] → hostAct .takeByte s = .refused .nothingWaiting) ∧
    (∀ bs, hostAct (.transmit bs) s = .next
      { s with world := { s.world with txq := s.world.txq ++ bs } })

/-- 60_exceptions.md R218, 20_memory.md R64: with no command pending, a step makes the host's move that
is due. A blocked host's move is due exactly while `BUSY` = 0, a counted one when its count has run out.
While a count runs, a step takes it down by one and is otherwise a step of the block: a waiting step while
`BUSY` = 0 (R30, log 26), and while `BUSY` = 1 the row that the block takes with no host move left. The
host as a queue of moves and its counts are the model's choice (log 4), and so is the one move of the
environment before the step (log 5). -/
def Obligations.StepMakesTheHostMoveThatIsDue : Prop :=
  (∀ (s : State) (a : HostAction) (rest : List HostMove), s.io.cmd = none →
    hostDue s = some (a, rest) →
    step s = hostAct a
      { s with world := s.world.move, host := { s.host with queue := rest } }) ∧
  (∀ (s : State) (a : HostAction) (rest : List HostMove),
    s.host.queue = { wait := .whenIdle, act := a } :: rest →
    (s.io.busy = false → hostDue s = some (a, rest)) ∧ (s.io.busy = true → hostDue s = none)) ∧
  (∀ (s : State) (a : HostAction) (rest : List HostMove) (k : Nat),
    s.host.queue = { wait := .after k, act := a } :: rest →
    (k = 0 → hostDue s = some (a, rest)) ∧ (0 < k → hostDue s = none)) ∧
  (∀ (s : State) (a : HostAction) (rest : List HostMove) (k : Nat), s.io.cmd = none →
    s.host.queue = { wait := .after (k + 1), act := a } :: rest →
    step s = blockStep
      { s with world := s.world.move,
               host := { s.host with queue := { wait := .after k, act := a } :: rest } } ∧
    (s.io.busy = false → step s = .next
      { s with world := s.world.move,
               host := { s.host with queue := { wait := .after k, act := a } :: rest } }) ∧
    (s.io.busy = true →
      (∀ t, step { s with host := { s.host with queue := [] } } = .next t →
        t.host = { s.host with queue := [] } ∧
        step s = .next
          { t with host := { s.host with queue := { wait := .after k, act := a } :: rest } }) ∧
      (∀ r, step { s with host := { s.host with queue := [] } } = .refused r →
        step s = .refused r) ∧
      (∀ f, step { s with host := { s.host with queue := [] } } = .fault f → step s = .fault f)))

/-- 00_scope.md R8, 10_state.md R26, D3: under every bus map in which no address stands for two registers,
a read at the address of a register or buffer byte is the host's read of it, a write of `CMD`'s address
is the host's write of `CMD`, a write at the address of a byte of the `IBUF` window writes that byte, and
a write at the address of any other register or byte is the host's write of a read-only one. The form of
the map (log 24) and the data of a bus write, 34 bits whose low 8 are a byte of `IBUF` (log 33), are the
model's choices. -/
def Obligations.BusAddressesNameTheRegisters : Prop :=
  ∀ m : BusMap, m.legal = true →
    (∀ (r : HostReg) (a : Nat), m.addr r = some a →
      m.reg a = some r ∧ busAction m (.read a) = some (.readReg r)) ∧
    (∀ w : CmdWord, busAction m (.write m.cmd w) = some (.writeCmd w)) ∧
    (∀ (w : CmdWord) (i a : Nat), m.addr (.ibuf i) = some a →
      busAction m (.write a w) = some (.writeIbuf i [w.setWidth 8])) ∧
    (∀ (w : CmdWord) (r : HostReg) (a : Nat), m.addr r = some a → r ≠ .cmd → (∀ i, r ≠ .ibuf i) →
      ∃ q, busAction m (.write a w) = some (.writeReg q))
end

