-- ==== Sys2Proof/Laws/Buffers.lean ====
section
/-! SUPPORT. What the operations on buffers do, and the canonical form of a buffer's cells. -/

namespace Sys2Proof.Machine

@[simp] theorem read_append_new (b : Buffer) (v : Byte) :
    Buffer.read (Buffer.append b v) b.length = some v := by
  simp [Buffer.read, Buffer.append]

theorem read_append_old (b : Buffer) (v : Byte) (i : Nat) (h : i ≠ b.length) :
    Buffer.read (Buffer.append b v) i = Buffer.read b i := by
  simp only [Buffer.read, Buffer.append]
  rcases Nat.lt_or_gt_of_ne h with h | h
  · exact List.getElem?_append_left h
  · simp [Nat.le_of_lt h, h]

@[simp] theorem append_length (b : Buffer) (v : Byte) :
    (Buffer.append b v).length = b.length + 1 := by
  simp [Buffer.append]

@[simp] theorem clear_length : Buffer.clear.length = 0 := rfl

@[simp] theorem read_clear (i : Nat) : Buffer.read Buffer.clear i = none := rfl

theorem read_isSome (b : Buffer) (i : Nat) (h : i < b.length) : Buffer.read b i = some b[i] := by
  simp [Buffer.read, h]

theorem read_isNone (b : Buffer) (i : Nat) (h : b.length ≤ i) : Buffer.read b i = none := by
  simp [Buffer.read, h]

theorem cellsFrom_wf (a : Nat) (b : Buffer) : Memory.wf (Buffer.cellsFrom a b) = true := by
  induction b generalizing a with
  | nil => rfl
  | cons v b ih =>
    cases b with
    | nil => rfl
    | cons u b =>
      have h := ih (a + 1)
      simp only [Buffer.cellsFrom] at h
      simp [Buffer.cellsFrom, Memory.wf, h]

/-- Every buffer is in canonical form, so every operation on buffers keeps it. -/
theorem cells_wf (b : Buffer) : Memory.wf (Buffer.cells b) = true := cellsFrom_wf 0 b

theorem append_wf (b : Buffer) (v : Byte) :
    Memory.wf (Buffer.cells (Buffer.append b v)) = true := cells_wf _

theorem clear_wf : Memory.wf (Buffer.cells Buffer.clear) = true := cells_wf _

/-- The buffers of the reset state are in canonical form. -/
theorem reset_wf :
    Memory.wf State.reset.io.ibuf = true ∧
    Memory.wf (Buffer.cells State.reset.fb.fbuf) = true ∧
    Memory.wf (Buffer.cells State.reset.lr.lbuf) = true := ⟨rfl, cells_wf _, cells_wf _⟩

theorem read_cellsFrom (a : Nat) (b : Buffer) (i : Nat) :
    Memory.read (Buffer.cellsFrom a b) (a + i) = Buffer.read b i := by
  induction b generalizing a i with
  | nil => rfl
  | cons v b ih =>
    cases i with
    | zero => simp [Buffer.cellsFrom, Memory.read, Buffer.read]
    | succ i =>
      have h := ih (a + 1) i
      rw [show a + 1 + i = a + (i + 1) by omega] at h
      simp [Buffer.cellsFrom, Memory.read, h, Buffer.read]

/-- A buffer's cells hold what the buffer holds. -/
theorem read_cells (b : Buffer) (i : Nat) : Memory.read (Buffer.cells b) i = Buffer.read b i := by
  simpa [Buffer.cells] using read_cellsFrom 0 b i

/-! ## Byte-addressed spaces -/

/-- The canonical form as a relation between all entries: indices rise. -/
theorem wf_iff (m : List Host.Cell) : Memory.wf m = true ↔ (m.map Prod.fst).Pairwise (· < ·) := by
  induction m with
  | nil => simp [Memory.wf]
  | cons c cs ih =>
    cases cs with
    | nil => simp [Memory.wf]
    | cons d ds =>
      simp only [Memory.wf, Bool.and_eq_true, decide_eq_true_eq, ih, List.map_cons,
        List.pairwise_cons, List.mem_cons, forall_eq_or_imp]
      constructor
      · rintro ⟨h, hd, hp⟩
        exact ⟨⟨h, fun x hx => lt_trans h (hd x hx)⟩, hd, hp⟩
      · rintro ⟨⟨h, _⟩, hd, hp⟩
        exact ⟨h, hd, hp⟩

theorem write_fst (i : Nat) (v : Byte) (m : List Host.Cell) :
    (Memory.write i v m).map Prod.fst = addIndex i (m.map Prod.fst) := by
  induction m with
  | nil => rfl
  | cons c cs ih =>
    simp only [Memory.write, addIndex, List.map_cons]
    split
    · rfl
    · split
      · simp_all
      · simp [ih]

theorem mem_addIndex (i j : Nat) (js : List Nat) : j ∈ addIndex i js ↔ j = i ∨ j ∈ js := by
  induction js with
  | nil => simp [addIndex]
  | cons k ks ih =>
    simp only [addIndex]
    split
    · simp
    · split
      · simp_all
      · simp only [List.mem_cons, ih]
        tauto

/-- One more index keeps a set rising. -/
theorem addIndex_rising (i : Nat) {js : List Nat} (h : js.Pairwise (· < ·)) :
    (addIndex i js).Pairwise (· < ·) := by
  induction js with
  | nil => simp [addIndex]
  | cons k ks ih =>
    have hk := List.pairwise_cons.mp h
    simp only [addIndex]
    split
    · rename_i hi
      exact List.pairwise_cons.mpr ⟨fun x hx => by
        rcases List.mem_cons.mp hx with rfl | hx
        · exact hi
        · exact lt_trans hi (hk.1 x hx), h⟩
    · split
      · exact h
      · exact List.pairwise_cons.mpr ⟨fun x hx => by
          rcases (mem_addIndex _ _ _).mp hx with rfl | hx
          · omega
          · exact hk.1 x hx, ih hk.2⟩

theorem mem_addIndices (i n j : Nat) (js : List Nat) :
    j ∈ addIndices i n js ↔ (i ≤ j ∧ j < i + n) ∨ j ∈ js := by
  induction n generalizing i js with
  | zero =>
    simp only [addIndices]
    exact ⟨.inr, fun h => h.elim (fun h => by omega) id⟩
  | succ n ih =>
    simp only [addIndices, ih, mem_addIndex, ← or_assoc]
    refine or_congr_left ?_
    omega

theorem addIndices_rising (i n : Nat) {js : List Nat} (h : js.Pairwise (· < ·)) :
    (addIndices i n js).Pairwise (· < ·) := by
  induction n generalizing i js with
  | zero => exact h
  | succ n ih => exact ih _ (addIndex_rising i h)

/-- A write keeps the canonical form. -/
theorem write_wf (i : Nat) (v : Byte) {m : List Host.Cell} (h : Memory.wf m = true) :
    Memory.wf (Memory.write i v m) = true := by
  rw [wf_iff, write_fst]
  exact addIndex_rising i ((wf_iff m).mp h)

theorem writeFrom_wf (i : Nat) (bs : List Byte) {m : List Host.Cell} (h : Memory.wf m = true) :
    Memory.wf (Memory.writeFrom i bs m) = true := by
  induction bs generalizing i m with
  | nil => exact h
  | cons b bs ih => exact ih _ (write_wf i b h)

/-- A read after a write: the written byte at its index, every other byte as before. -/
theorem read_write (i j : Nat) (v : Byte) (m : List Host.Cell) :
    Memory.read (Memory.write i v m) j = if i = j then some v else Memory.read m j := by
  induction m with
  | nil => simp [Memory.write, Memory.read]
  | cons c cs ih =>
    simp only [Memory.write]
    split
    · simp [Memory.read]
    · split
      · rename_i hc
        by_cases hj : i = j <;> simp_all [Memory.read]
      · simp only [Memory.read, ih]
        split <;> split <;> simp_all

/-- A read after several bytes were written one behind the other. -/
theorem read_writeFrom (i j : Nat) (bs : List Byte) (m : List Host.Cell) :
    Memory.read (Memory.writeFrom i bs m) j =
      if i ≤ j ∧ j < i + bs.length then bs[j - i]? else Memory.read m j := by
  induction bs generalizing i m with
  | nil =>
    rw [if_neg (by simp)]
    rfl
  | cons b bs ih =>
    simp only [Memory.writeFrom, ih, read_write, List.length_cons]
    by_cases hj : i = j
    · subst hj
      simp
    · by_cases hlt : i + 1 ≤ j ∧ j < i + 1 + bs.length
      · rw [if_pos hlt, if_pos (by omega), show j - i = (j - (i + 1)) + 1 by omega,
          List.getElem?_cons_succ]
      · rw [if_neg hlt, if_neg hj, if_neg (by omega)]

theorem leadingFrom_cellsFrom (k : Nat) (b : Buffer) :
    Memory.leadingFrom k (Buffer.cellsFrom k b) = b := by
  induction b generalizing k with
  | nil => rfl
  | cons v b ih => simp [Buffer.cellsFrom, Memory.leadingFrom, ih]

/-- A buffer's cells, read from index 0 on, are the buffer. -/
@[simp] theorem leading_cells (b : Buffer) : Memory.leading (Buffer.cells b) = b :=
  leadingFrom_cellsFrom 0 b

theorem read_leadingFrom (k i : Nat) (m : List Host.Cell)
    (h : i < (Memory.leadingFrom k m).length) :
    Memory.read m (k + i) = Buffer.read (Memory.leadingFrom k m) i := by
  induction m generalizing k i with
  | nil => simp [Memory.leadingFrom] at h
  | cons c cs ih =>
    simp only [Memory.leadingFrom] at h ⊢
    split at h
    · rename_i hc
      rw [if_pos hc]
      cases i with
      | zero => simp [Memory.read, Buffer.read, hc]
      | succ i =>
        have := ih (k + 1) i (by simpa using h)
        rw [show k + 1 + i = k + (i + 1) by omega] at this
        simp [Memory.read, hc, this, Buffer.read]
    · simp at h

/-- What a unit reads at an index is the byte the space holds there. -/
theorem read_leading (i : Nat) (m : List Host.Cell) (h : i < (Memory.leading m).length) :
    Memory.read m i = Buffer.read (Memory.leading m) i := by
  simpa [Memory.leading] using read_leadingFrom 0 i m h

theorem read_eq_none {m : List Host.Cell} {i : Nat} (h : ∀ c ∈ m, c.1 ≠ i) :
    Memory.read m i = none := by
  induction m with
  | nil => rfl
  | cons c cs ih =>
    simp only [List.mem_cons, forall_eq_or_imp] at h
    simp [Memory.read, h.1, ih h.2]

theorem read_leadingFrom_end (k : Nat) {m : List Host.Cell} (h : Memory.wf m = true)
    (hk : ∀ c ∈ m, k ≤ c.1) : Memory.read m (k + (Memory.leadingFrom k m).length) = none := by
  induction m generalizing k with
  | nil => rfl
  | cons c cs ih =>
    have hp := (wf_iff _).mp h
    simp only [List.map_cons, List.pairwise_cons] at hp
    have hcs : ∀ d ∈ cs, c.1 < d.1 := fun d hd => hp.1 _ (List.mem_map_of_mem hd)
    simp only [Memory.leadingFrom]
    split
    · rename_i hc
      have := ih (k + 1) ((wf_iff _).mpr hp.2) fun d hd => by have := hcs d hd; omega
      simp only [List.length_cons, Memory.read]
      rw [if_neg (by omega), show k + ((Memory.leadingFrom (k + 1) cs).length + 1) =
        k + 1 + (Memory.leadingFrom (k + 1) cs).length by omega, this]
    · rename_i hc
      refine read_eq_none fun d hd => ?_
      have h1 := hk c (by simp)
      simp only [List.length_nil, Nat.add_zero]
      rcases List.mem_cons.mp hd with rfl | hd
      · exact hc
      · have := hcs d hd
        omega

/-- A space in canonical form holds the first `n` bytes exactly when none of them is missing. -/
theorem leading_length {m : List Host.Cell} (h : Memory.wf m = true) (n : Nat) :
    n ≤ (Memory.leading m).length ↔ ∀ i < n, (Memory.read m i).isSome = true := by
  constructor
  · intro hn i hi
    rw [read_leading i m (by omega), read_isSome _ _ (by omega)]
    rfl
  · intro hall
    by_contra hlt
    have h1 := read_leadingFrom_end 0 h fun _ _ => Nat.zero_le _
    have h2 := hall (Memory.leading m).length (by omega)
    rw [Nat.zero_add] at h1
    rw [Memory.leading, h1] at h2
    simp at h2

/-! ## The environment's moves -/

theorem move_script (w : World) (m : EnvMove) (ms : List EnvMove) (h : w.env = m :: ms) :
    w.move = { w with rxq := w.rxq ++ m.arrivals, clock := w.clock + m.ticks, env := ms } := by
  simp [World.move, World.arrive, h]

/-- A scripted move, on a world written out. -/
@[simp] theorem move_mk (rxq txq : List Byte) (c : Nat) (m : EnvMove) (ms : List EnvMove) (d : Nat) :
    World.move ⟨rxq, txq, c, m :: ms, d⟩ = ⟨rxq ++ m.arrivals, txq, c + m.ticks, ms, d⟩ := rfl

/-- A move of the environment adds bytes at the tail of the receive stream, never turns the clock back
and never touches the transmit stream. -/
theorem move_adds (w : World) :
    (∃ bs, w.move.rxq = w.rxq ++ bs) ∧ w.clock ≤ w.move.clock ∧ w.move.txq = w.txq := by
  unfold World.move
  split <;> simp [World.arrive]

@[simp] theorem move_txq (w : World) : w.move.txq = w.txq := (move_adds w).2.2

@[simp] theorem moves_zero (w : World) : w.moves 0 = w := rfl

@[simp] theorem move_moves (w : World) (k : Nat) : w.move.moves k = w.moves (k + 1) := rfl

theorem moves_moves (w : World) (j k : Nat) : (w.moves j).moves k = w.moves (j + k) := by
  induction j generalizing w with
  | zero => simp
  | succ j ih =>
    rw [← move_moves w j, ih, move_moves]
    congr 1
    omega

theorem moves_move (w : World) (k : Nat) : (w.moves k).move = w.moves (k + 1) := moves_moves w k 1

/-- Any number of moves adds bytes at the tail of the receive stream, never turns the clock back and
never touches the transmit stream. -/
theorem moves_adds (w : World) (k : Nat) :
    (∃ bs, (w.moves k).rxq = w.rxq ++ bs) ∧ w.clock ≤ (w.moves k).clock ∧ (w.moves k).txq = w.txq := by
  induction k generalizing w with
  | zero => simp
  | succ k ih =>
    obtain ⟨⟨bs, h1⟩, h2, h3⟩ := ih w.move
    obtain ⟨⟨cs, g1⟩, g2, g3⟩ := move_adds w
    rw [move_moves] at h1 h2 h3
    exact ⟨⟨cs ++ bs, by rw [h1, g1, List.append_assoc]⟩, le_trans g2 h2, h3.trans g3⟩

theorem move_rxq_ne_nil (w : World) (h : w.rxq ≠ []) : w.move.rxq ≠ [] := by
  obtain ⟨bs, hbs⟩ := (move_adds w).1
  simp [hbs, h]

end Sys2Proof.Machine
end

