-- ==== Sys2Proof/Laws/Crc.lean ====
section
/-! SUPPORT. The checksum as a function: linearity over bits, streaming, and the shifts that meet no
feedback. -/

namespace Sys2Proof.Machine

@[simp] theorem crcFeedback_xor (c d : CrcWord) :
    crcFeedback (c ^^^ d) = Bool.xor (crcFeedback c) (crcFeedback d) := by
  simp [crcFeedback]

/-- A shift step is linear over bits (R119). -/
theorem shiftStep_xor (c d : CrcWord) : shiftStep (c ^^^ d) = shiftStep c ^^^ shiftStep d := by
  have hs : (c ^^^ d) <<< 1 = c <<< 1 ^^^ d <<< 1 := BitVec.shiftLeft_xor_distrib ..
  unfold shiftStep
  rw [crcFeedback_xor, hs]
  cases hc : crcFeedback c <;> cases hd : crcFeedback d <;>
    simp only [Bool.xor_self, Bool.xor_false, Bool.xor_true, Bool.not_false, if_true,
      Bool.false_eq_true, if_false]
  · rw [BitVec.xor_assoc]
  · rw [BitVec.xor_assoc, BitVec.xor_assoc, BitVec.xor_comm crcPoly]
  · rw [BitVec.xor_assoc, BitVec.xor_comm crcPoly, BitVec.xor_assoc, BitVec.xor_self,
      BitVec.xor_zero]

theorem shiftSteps_xor (k : Nat) (c d : CrcWord) :
    shiftSteps k (c ^^^ d) = shiftSteps k c ^^^ shiftSteps k d := by
  induction k generalizing c d with
  | zero => rfl
  | succ k ih => simp [shiftSteps, shiftStep_xor, ih]

/-- The step may be taken last as well as first. -/
theorem shiftSteps_succ (k : Nat) (c : CrcWord) :
    shiftSteps (k + 1) c = shiftStep (shiftSteps k c) := by
  induction k generalizing c with
  | zero => rfl
  | succ k ih => rw [shiftSteps, ih, shiftSteps]

/-- `highByte` is multiplication by 256 (R112). -/
theorem highByte_toNat (b : Byte) : (highByte b).toNat = b.toNat * 256 := by
  have hb := b.isLt
  simp only [highByte, BitVec.toNat_shiftLeft, BitVec.toNat_setWidth, Nat.shiftLeft_eq]
  omega

theorem highByte_xor (a b : Byte) : highByte (a ^^^ b) = highByte a ^^^ highByte b := by
  simp only [highByte, BitVec.setWidth_xor, BitVec.shiftLeft_xor_distrib]

theorem loadByte_xor (c d : CrcWord) (a b : Byte) :
    loadByte (c ^^^ d) (a ^^^ b) = loadByte c a ^^^ loadByte d b := by
  unfold loadByte
  rw [highByte_xor, BitVec.xor_assoc, BitVec.xor_assoc]
  congr 1
  rw [← BitVec.xor_assoc, ← BitVec.xor_assoc, BitVec.xor_comm d]

theorem crcByte_xor (c d : CrcWord) (a b : Byte) :
    crcByte (c ^^^ d) (a ^^^ b) = crcByte c a ^^^ crcByte d b := by
  simp [crcByte, loadByte_xor, shiftSteps_xor]

theorem shiftStep_zero : shiftStep 0#16 = 0#16 := by decide

theorem shiftSteps_zero (k : Nat) : shiftSteps k 0#16 = 0#16 := by
  induction k with
  | zero => rfl
  | succ k ih => simp [shiftSteps, shiftStep_zero, ih]

theorem crcByte_zero : crcByte 0#16 0#8 = 0#16 := by decide

/-- Shifts that meet no set bit 15 only shift. -/
theorem shiftSteps_small (k : Nat) (c : CrcWord) (h : c.toNat < 2 ^ (16 - k)) (hk : k ≤ 16) :
    (shiftSteps k c).toNat = c.toNat * 2 ^ k := by
  induction k generalizing c with
  | zero => simp [shiftSteps]
  | succ k ih =>
    have hpow : 2 ^ (16 - k) = 2 * 2 ^ (16 - (k + 1)) := by
      rw [show 16 - k = (16 - (k + 1)) + 1 by omega, Nat.pow_succ']
    have hle : 2 ^ (16 - (k + 1)) ≤ 2 ^ 15 := Nat.pow_le_pow_right (by omega) (by omega)
    have hb : crcFeedback c = false := by
      simp only [crcFeedback]
      exact Nat.testBit_lt_two_pow (by omega)
    have hs : (shiftStep c).toNat = 2 * c.toNat := by
      simp only [shiftStep, hb, Bool.false_eq_true, if_false, BitVec.toNat_shiftLeft,
        Nat.shiftLeft_eq]
      omega
    rw [shiftSteps, ih _ (by omega) (by omega), hs, Nat.pow_succ']
    ring

@[simp] theorem crcFrom_nil (c : CrcWord) : crcFrom c [] = c := rfl

@[simp] theorem crcFrom_cons (c : CrcWord) (b : Byte) (bs : List Byte) :
    crcFrom c (b :: bs) = crcFrom (crcByte c b) bs := rfl

/-- Streaming: the loop continues from where it stands (R119). -/
theorem crcFrom_append (c : CrcWord) (a b : List Byte) :
    crcFrom c (a ++ b) = crcFrom (crcFrom c a) b := List.foldl_append

theorem crc16_append_byte (a : List Byte) (b : Byte) : crc16 (a ++ [b]) = crcByte (crc16 a) b := by
  simp [crc16, crcFrom_append]

/-- The checksum of one more byte of a span. -/
theorem crc16_take_succ (l : List Byte) (i : Nat) (b : Byte) (h : l[i]? = some b) :
    crc16 (l.take (i + 1)) = crcByte (crc16 (l.take i)) b := by
  rw [List.take_add_one, h, Option.toList_some, crc16_append_byte]

/-! ## The bit-serial form -/

/-- One step of both forms: the byte-wise register is the serial one with the pending bits of the byte
above it (R118). -/
theorem shiftStep_pending (c : CrcWord) (p : Byte) :
    shiftStep (c ^^^ highByte p) = serialBit c (p.getLsbD 7) ^^^ highByte (p <<< 1) := by
  have hp : crcFeedback (highByte p) = p.getLsbD 7 := by
    simp [crcFeedback, highByte]
  have hs : (c ^^^ highByte p) <<< 1 = c <<< 1 ^^^ highByte (p <<< 1) := by
    rw [BitVec.shiftLeft_xor_distrib]
    congr 1
    apply BitVec.eq_of_toNat_eq
    have hlt := p.isLt
    rw [BitVec.toNat_shiftLeft, highByte_toNat, highByte_toNat, BitVec.toNat_shiftLeft]
    simp only [Nat.shiftLeft_eq]
    omega
  unfold shiftStep serialBit
  rw [crcFeedback_xor, hp, hs]
  cases Bool.xor (crcFeedback c) (p.getLsbD 7)
  · simp
  · simp only [if_true]
    rw [BitVec.xor_assoc, BitVec.xor_assoc, BitVec.xor_comm crcPoly]

end Sys2Proof.Machine
end

