-- ==== Sys2Proof/Laws/Encoding.lean ====
section
/-! SUPPORT. The fields of an encoded command word, and bytes against numbers. -/

namespace Sys2Proof

theorem append_toNat (o : BitVec 2) (a : Arg) :
    (o ++ a : CmdWord).toNat = 2 ^ 32 * o.toNat + a.toNat := by
  have h : (o ++ a : BitVec (2 + 32)).toNat = o.toNat <<< 32 ||| a.toNat := BitVec.toNat_append ..
  rw [← Nat.shiftLeft_add_eq_or_of_lt a.isLt, Nat.shiftLeft_eq, Nat.mul_comm] at h
  exact h

theorem opField_append (o : BitVec 2) (a : Arg) : opField (o ++ a) = o := by
  have ho := o.isLt
  have ha := a.isLt
  apply BitVec.eq_of_toNat_eq
  simp only [opField, BitVec.extractLsb'_toNat, append_toNat, Nat.shiftRight_eq_div_pow]
  omega

theorem argField_append (o : BitVec 2) (a : Arg) : argField (o ++ a) = a := by
  have ha := a.isLt
  apply BitVec.eq_of_toNat_eq
  simp only [argField, BitVec.extractLsb'_toNat, append_toNat, Nat.shiftRight_eq_div_pow]
  omega

theorem append_fields (w : CmdWord) : opField w ++ argField w = w := by
  have hw := w.isLt
  apply BitVec.eq_of_toNat_eq
  simp only [append_toNat, opField, argField, BitVec.extractLsb'_toNat, Nat.shiftRight_eq_div_pow]
  omega

theorem bytesOfNumber_length (k n : Nat) : (bytesOfNumber k n).length = k := by
  induction k generalizing n with
  | zero => rfl
  | succ k ih => simp [bytesOfNumber, ih]

theorem numberOfBytes_bytesOfNumber (k n : Nat) :
    numberOfBytes (bytesOfNumber k n) = n % 256 ^ k := by
  induction k generalizing n with
  | zero => simp [bytesOfNumber, numberOfBytes, Nat.mod_one]
  | succ k ih =>
    simp only [bytesOfNumber, numberOfBytes, ih, BitVec.toNat_ofNat, Nat.reducePow]
    rw [Nat.pow_succ', Nat.mod_mul]

theorem bytesOfNumber_numberOfBytes (bs : List Byte) :
    bytesOfNumber bs.length (numberOfBytes bs) = bs := by
  induction bs with
  | nil => rfl
  | cons b bs ih =>
    have hb := b.isLt
    have hd : (b.toNat + 256 * numberOfBytes bs) / 256 = numberOfBytes bs := by omega
    simp only [List.length_cons, bytesOfNumber, numberOfBytes, hd, ih]
    congr 1
    apply BitVec.eq_of_toNat_eq
    simp only [BitVec.toNat_ofNat]
    omega

/-- The mask of the opcode table keeps exactly the field `OP` (R80, R81). -/
theorem opMask_and (w : CmdWord) : w &&& 0x300000000#34 = opField w ++ 0#32 := by
  apply BitVec.eq_of_getLsbD_eq
  intro j hj
  have h2 : (opField w ++ 0#32 : CmdWord).getLsbD j =
    if j < 32 then (0#32).getLsbD j else (opField w).getLsbD (j - 32) := BitVec.getLsbD_append
  rw [h2]
  interval_cases j <;> simp [opField]

end Sys2Proof
end

