-- ==== Sys2Proof/Laws/Frame.lean ====
section
/-! SUPPORT. The Frame as a function: its length, its bytes by index, and its prefixes. -/

namespace Sys2Proof.Machine

@[simp] theorem frameHeader_length (m : List Byte) :
    (frameHeader m).length = headerLen m.length := by
  simp [frameHeader, lengthDigits, headerLen]
  omega

@[simp] theorem buildFrame_length (m : List Byte) : (buildFrame m).length = m.length + 8 := by
  simp [buildFrame, headerLen]
  omega

/-- The bytes before the CRC field are the header (R136). -/
theorem buildFrame_take_header (m : List Byte) :
    (buildFrame m).take (headerLen m.length) = frameHeader m := by
  simp [buildFrame]

theorem buildFrame_marker (m : List Byte) :
    (buildFrame m)[0]? = some markerCaret ∧ (buildFrame m)[1]? = some markerP := by
  simp [buildFrame, frameHeader]

theorem buildFrame_digits (m : List Byte) :
    (buildFrame m)[2]? = some (digitHundreds (lengthField m.length)) ∧
    (buildFrame m)[3]? = some (digitTens (lengthField m.length)) ∧
    (buildFrame m)[4]? = some (digitUnits (lengthField m.length)) := by
  simp [buildFrame, frameHeader, lengthDigits]

theorem buildFrame_mnemonic (m : List Byte) (i : Nat) (h : i < m.length) :
    (buildFrame m)[headerLen i]? = m[i]? := by
  have h1 : headerLen i < (frameHeader m).length := by simp [headerLen, h]
  have h2 : ([markerCaret, markerP] ++ lengthDigits (lengthField m.length)).length = 5 := rfl
  rw [buildFrame, List.getElem?_append_left h1, frameHeader,
    List.getElem?_append_right (by rw [h2]; simp [headerLen]), h2]
  simp [headerLen]

theorem buildFrame_trailer (m : List Byte) :
    (buildFrame m)[headerLen m.length]? = some (crcHigh (crc16 (frameHeader m))) ∧
    (buildFrame m)[headerLen m.length + 1]? = some (crcLow (crc16 (frameHeader m))) ∧
    (buildFrame m)[headerLen m.length + 2]? = some terminator := by
  have hl := frameHeader_length m
  refine ⟨?_, ?_, ?_⟩ <;>
    rw [buildFrame, List.getElem?_append_right (by omega), hl] <;> simp

/-- A prefix grows by the byte at its end. -/
theorem append_take {l : List Byte} {k : Nat} {v : Byte} (h : l[k]? = some v) :
    Buffer.append (l.take k) v = l.take (k + 1) := by
  rw [Buffer.append, List.take_add_one, h, Option.toList_some]

/-- The mnemonic can be read back from its Frame (R138). -/
theorem buildFrame_mnemonic_span (m : List Byte) :
    ((buildFrame m).drop 5).take m.length = m := by
  have h2 : ([markerCaret, markerP] ++ lengthDigits (lengthField m.length)).length = 5 := rfl
  rw [buildFrame, frameHeader, List.append_assoc, ← h2, List.drop_left, List.take_left]

/-! ## Digits -/

theorem asciiDigit_toNat (d : Nat) (h : d < 10) : (asciiDigit d).toNat = asciiZero + d := by
  simp only [asciiDigit, BitVec.toNat_ofNat, asciiZero]
  omega

/-! ## The CRC field -/

theorem crcHigh_toNat (c : CrcWord) : (crcHigh c).toNat = c.toNat / 256 := by
  have h := c.isLt
  simp only [crcHigh, BitVec.extractLsb'_toNat, Nat.shiftRight_eq_div_pow]
  omega

theorem crcLow_toNat (c : CrcWord) : (crcLow c).toNat = c.toNat % 256 := by
  simp [crcLow, BitVec.extractLsb'_toNat]

end Sys2Proof.Machine
end

