-- ==== Sys2Proof/Laws/State.lean ====
section
/-! SUPPORT. What each field of the state is after each shared update: one lemma a field, true by rfl. -/

namespace Sys2Proof.Machine

/-! ## beginOp -/

@[simp] theorem beginOp_cmd (a : Arg) (io : IoRegs) : (beginOp a io).cmd = io.cmd := rfl
@[simp] theorem beginOp_busy (a : Arg) (io : IoRegs) : (beginOp a io).busy = true := rfl
@[simp] theorem beginOp_done (a : Arg) (io : IoRegs) : (beginOp a io).done = false := rfl
@[simp] theorem beginOp_ibuf (a : Arg) (io : IoRegs) : (beginOp a io).ibuf = io.ibuf := rfl
@[simp] theorem beginOp_ibufWritten (a : Arg) (io : IoRegs) :
    (beginOp a io).ibufWritten = [] := rfl
@[simp] theorem beginOp_arg (a : Arg) (io : IoRegs) : (beginOp a io).arg = a := rfl
@[simp] theorem beginOp_crcWritten (a : Arg) (io : IoRegs) :
    (beginOp a io).crcWritten = io.crcWritten := rfl
@[simp] theorem beginOp_successWritten (a : Arg) (io : IoRegs) :
    (beginOp a io).successWritten = io.successWritten := rfl

/-! ## finishOp -/

@[simp] theorem finishOp_cmd (io : IoRegs) : (finishOp io).cmd = io.cmd := rfl
@[simp] theorem finishOp_busy (io : IoRegs) : (finishOp io).busy = false := rfl
@[simp] theorem finishOp_done (io : IoRegs) : (finishOp io).done = true := rfl
@[simp] theorem finishOp_ibuf (io : IoRegs) : (finishOp io).ibuf = io.ibuf := rfl
@[simp] theorem finishOp_ibufWritten (io : IoRegs) :
    (finishOp io).ibufWritten = io.ibufWritten := rfl
@[simp] theorem finishOp_arg (io : IoRegs) : (finishOp io).arg = io.arg := rfl
@[simp] theorem finishOp_crcWritten (io : IoRegs) : (finishOp io).crcWritten = io.crcWritten := rfl
@[simp] theorem finishOp_successWritten (io : IoRegs) :
    (finishOp io).successWritten = io.successWritten := rfl

/-! ## writeIbuf -/

@[simp] theorem writeIbuf_cmd (i : Nat) (bs : List Byte) (io : IoRegs) :
    (writeIbuf i bs io).cmd = io.cmd := rfl
@[simp] theorem writeIbuf_busy (i : Nat) (bs : List Byte) (io : IoRegs) :
    (writeIbuf i bs io).busy = io.busy := rfl
@[simp] theorem writeIbuf_done (i : Nat) (bs : List Byte) (io : IoRegs) :
    (writeIbuf i bs io).done = io.done := rfl
@[simp] theorem writeIbuf_arg (i : Nat) (bs : List Byte) (io : IoRegs) :
    (writeIbuf i bs io).arg = io.arg := rfl
@[simp] theorem writeIbuf_crcWritten (i : Nat) (bs : List Byte) (io : IoRegs) :
    (writeIbuf i bs io).crcWritten = io.crcWritten := rfl
@[simp] theorem writeIbuf_successWritten (i : Nat) (bs : List Byte) (io : IoRegs) :
    (writeIbuf i bs io).successWritten = io.successWritten := rfl
@[simp] theorem writeIbuf_ibuf (i : Nat) (bs : List Byte) (io : IoRegs) :
    (writeIbuf i bs io).ibuf = Memory.writeFrom i bs io.ibuf := rfl
@[simp] theorem writeIbuf_ibufWritten (i : Nat) (bs : List Byte) (io : IoRegs) :
    (writeIbuf i bs io).ibufWritten = addIndices i bs.length io.ibufWritten := rfl

/-! ## crcStart -/

@[simp] theorem crcStart_phase (ce : CrcRegs) : (crcStart ce).phase = .load := rfl
@[simp] theorem crcStart_crc (ce : CrcRegs) : (crcStart ce).crc = crcInit := rfl
@[simp] theorem crcStart_idx (ce : CrcRegs) : (crcStart ce).idx = 0 := rfl
@[simp] theorem crcStart_bitcnt (ce : CrcRegs) : (crcStart ce).bitcnt = ce.bitcnt := rfl

/-! ## crcLoad -/

@[simp] theorem crcLoad_phase (b : Byte) (ce : CrcRegs) : (crcLoad b ce).phase = .shift := rfl
@[simp] theorem crcLoad_crc (b : Byte) (ce : CrcRegs) :
    (crcLoad b ce).crc = loadByte ce.crc b := rfl
@[simp] theorem crcLoad_idx (b : Byte) (ce : CrcRegs) : (crcLoad b ce).idx = ce.idx := rfl
@[simp] theorem crcLoad_bitcnt (b : Byte) (ce : CrcRegs) : (crcLoad b ce).bitcnt = 0 := rfl

/-! ## crcShift -/

@[simp] theorem crcShift_phase (ce : CrcRegs) : (crcShift ce).phase = ce.phase := rfl
@[simp] theorem crcShift_crc (ce : CrcRegs) : (crcShift ce).crc = shiftStep ce.crc := rfl
@[simp] theorem crcShift_idx (ce : CrcRegs) : (crcShift ce).idx = ce.idx := rfl
@[simp] theorem crcShift_bitcnt (ce : CrcRegs) : (crcShift ce).bitcnt = ce.bitcnt + 1 := rfl

/-! ## crcNextByte -/

@[simp] theorem crcNextByte_phase (ce : CrcRegs) : (crcNextByte ce).phase = .load := rfl
@[simp] theorem crcNextByte_crc (ce : CrcRegs) : (crcNextByte ce).crc = ce.crc := rfl
@[simp] theorem crcNextByte_idx (ce : CrcRegs) : (crcNextByte ce).idx = ce.idx + 1 := rfl
@[simp] theorem crcNextByte_bitcnt (ce : CrcRegs) : (crcNextByte ce).bitcnt = ce.bitcnt := rfl

/-! ## fbAppend -/

@[simp] theorem fbAppend_phase (v : Byte) (p : FbPhase) (fb : FbRegs) :
    (fbAppend v p fb).phase = p := rfl
@[simp] theorem fbAppend_len (v : Byte) (p : FbPhase) (fb : FbRegs) :
    (fbAppend v p fb).len = fb.len := rfl
@[simp] theorem fbAppend_idx (v : Byte) (p : FbPhase) (fb : FbRegs) :
    (fbAppend v p fb).idx = fb.idx := rfl
@[simp] theorem fbAppend_fbuf (v : Byte) (p : FbPhase) (fb : FbRegs) :
    (fbAppend v p fb).fbuf = Buffer.append fb.fbuf v := rfl

/-! ## fbCopy -/

@[simp] theorem fbCopy_phase (b : Byte) (fb : FbRegs) : (fbCopy b fb).phase = fb.phase := rfl
@[simp] theorem fbCopy_len (b : Byte) (fb : FbRegs) : (fbCopy b fb).len = fb.len := rfl
@[simp] theorem fbCopy_idx (b : Byte) (fb : FbRegs) : (fbCopy b fb).idx = fb.idx + 1 := rfl
@[simp] theorem fbCopy_fbuf (b : Byte) (fb : FbRegs) :
    (fbCopy b fb).fbuf = Buffer.append fb.fbuf b := rfl

/-! ## timeoutStop -/

@[simp] theorem timeoutStop_phase (lr : LrRegs) : (timeoutStop lr).phase = .done := rfl
@[simp] theorem timeoutStop_lbuf (lr : LrRegs) : (timeoutStop lr).lbuf = lr.lbuf := rfl
@[simp] theorem timeoutStop_timeout (lr : LrRegs) : (timeoutStop lr).timeout = lr.timeout := rfl
@[simp] theorem timeoutStop_tStart (lr : LrRegs) : (timeoutStop lr).tStart = lr.tStart := rfl
@[simp] theorem timeoutStop_tBk (lr : LrRegs) : (timeoutStop lr).tBk = lr.tBk := rfl
@[simp] theorem timeoutStop_success (lr : LrRegs) : (timeoutStop lr).success = false := rfl

/-! ## arrive -/

@[simp] theorem arrive_rxq (w : World) (bs : List Byte) (n : Nat) :
    (w.arrive bs n).rxq = w.rxq ++ bs := rfl
@[simp] theorem arrive_txq (w : World) (bs : List Byte) (n : Nat) :
    (w.arrive bs n).txq = w.txq := rfl
@[simp] theorem arrive_clock (w : World) (bs : List Byte) (n : Nat) :
    (w.arrive bs n).clock = w.clock + n := rfl
@[simp] theorem arrive_env (w : World) (bs : List Byte) (n : Nat) :
    (w.arrive bs n).env = w.env := rfl
@[simp] theorem arrive_envDraws (w : World) (bs : List Byte) (n : Nat) :
    (w.arrive bs n).envDraws = w.envDraws := rfl

/-! ## tWrite -/

@[simp] theorem tWrite_rxq (bs : List Byte) (w : World) : (tWrite bs w).rxq = w.rxq := rfl
@[simp] theorem tWrite_txq (bs : List Byte) (w : World) : (tWrite bs w).txq = w.txq ++ bs := rfl
@[simp] theorem tWrite_clock (bs : List Byte) (w : World) : (tWrite bs w).clock = w.clock := rfl
@[simp] theorem tWrite_env (bs : List Byte) (w : World) : (tWrite bs w).env = w.env := rfl
@[simp] theorem tWrite_envDraws (bs : List Byte) (w : World) :
    (tWrite bs w).envDraws = w.envDraws := rfl

/-! ## envMove -/

@[simp] theorem envMove_io (s : State) : (envMove s).io = s.io := rfl
@[simp] theorem envMove_ce (s : State) : (envMove s).ce = s.ce := rfl
@[simp] theorem envMove_fb (s : State) : (envMove s).fb = s.fb := rfl
@[simp] theorem envMove_lr (s : State) : (envMove s).lr = s.lr := rfl
@[simp] theorem envMove_world (s : State) : (envMove s).world = s.world.move := rfl
@[simp] theorem envMove_host (s : State) : (envMove s).host = s.host := rfl
@[simp] theorem envMove_params (s : State) : (envMove s).params = s.params := rfl

/-! ## What the environment's moves do not touch -/

@[simp] theorem hostDue_envMove (s : State) : hostDue (envMove s) = hostDue s := rfl
@[simp] theorem hostBlocked_envMove (s : State) : hostBlocked (envMove s) = hostBlocked s := rfl
@[simp] theorem undisturbed_envMove (s : State) : undisturbed (envMove s) = undisturbed s := rfl
@[simp] theorem operandLen_envMove (s : State) : operandLen (envMove s) = operandLen s := rfl
@[simp] theorem operand_envMove (s : State) : operand (envMove s) = operand s := rfl
@[simp] theorem engineBuffer_envMove (s : State) : engineBuffer (envMove s) = engineBuffer s := rfl
@[simp] theorem engineLen_envMove (s : State) : engineLen (envMove s) = engineLen s := rfl
@[simp] theorem lineFull_envMove (s : State) : lineFull (envMove s) = lineFull s := rfl

/-! ## withQueue -/

@[simp] theorem withQueue_io (q : List HostMove) (s : State) : (withQueue q s).io = s.io := rfl
@[simp] theorem withQueue_ce (q : List HostMove) (s : State) : (withQueue q s).ce = s.ce := rfl
@[simp] theorem withQueue_fb (q : List HostMove) (s : State) : (withQueue q s).fb = s.fb := rfl
@[simp] theorem withQueue_lr (q : List HostMove) (s : State) : (withQueue q s).lr = s.lr := rfl
@[simp] theorem withQueue_world (q : List HostMove) (s : State) :
    (withQueue q s).world = s.world := rfl
@[simp] theorem withQueue_host (q : List HostMove) (s : State) :
    (withQueue q s).host = { s.host with queue := q } := rfl
@[simp] theorem withQueue_params (q : List HostMove) (s : State) :
    (withQueue q s).params = s.params := rfl

/-! ## resetBlock -/

@[simp] theorem resetBlock_io (s : State) : (resetBlock s).io = State.reset.io := rfl
@[simp] theorem resetBlock_ce (s : State) : (resetBlock s).ce = State.reset.ce := rfl
@[simp] theorem resetBlock_fb (s : State) : (resetBlock s).fb = State.reset.fb := rfl
@[simp] theorem resetBlock_lr (s : State) : (resetBlock s).lr = State.reset.lr := rfl
@[simp] theorem resetBlock_world (s : State) : (resetBlock s).world = s.world := rfl
@[simp] theorem resetBlock_host (s : State) : (resetBlock s).host = s.host := rfl
@[simp] theorem resetBlock_params (s : State) : (resetBlock s).params = s.params := rfl

/-! ## acceptCrc16 -/

@[simp] theorem acceptCrc16_io (n : Arg) (s : State) :
    (acceptCrc16 n s).io = { beginOp n s.io with crcWritten := true } := rfl
@[simp] theorem acceptCrc16_ce (n : Arg) (s : State) :
    (acceptCrc16 n s).ce = crcStart s.ce := rfl
@[simp] theorem acceptCrc16_fb (n : Arg) (s : State) : (acceptCrc16 n s).fb = s.fb := rfl
@[simp] theorem acceptCrc16_lr (n : Arg) (s : State) : (acceptCrc16 n s).lr = s.lr := rfl
@[simp] theorem acceptCrc16_world (n : Arg) (s : State) :
    (acceptCrc16 n s).world = s.world := rfl
@[simp] theorem acceptCrc16_host (n : Arg) (s : State) : (acceptCrc16 n s).host = s.host := rfl
@[simp] theorem acceptCrc16_params (n : Arg) (s : State) :
    (acceptCrc16 n s).params = s.params := rfl

/-! ## acceptBuild -/

@[simp] theorem acceptBuild_io (n : Arg) (s : State) :
    (acceptBuild n s).io = { beginOp n s.io with crcWritten := true } := rfl
@[simp] theorem acceptBuild_ce (n : Arg) (s : State) : (acceptBuild n s).ce = s.ce := rfl
@[simp] theorem acceptBuild_fb (n : Arg) (s : State) :
    (acceptBuild n s).fb = { s.fb with fbuf := Buffer.clear, phase := .lenCalc } := rfl
@[simp] theorem acceptBuild_lr (n : Arg) (s : State) : (acceptBuild n s).lr = s.lr := rfl
@[simp] theorem acceptBuild_world (n : Arg) (s : State) :
    (acceptBuild n s).world = s.world := rfl
@[simp] theorem acceptBuild_host (n : Arg) (s : State) : (acceptBuild n s).host = s.host := rfl
@[simp] theorem acceptBuild_params (n : Arg) (s : State) :
    (acceptBuild n s).params = s.params := rfl

/-! ## acceptReadline -/

@[simp] theorem acceptReadline_io (n : Arg) (s : State) :
    (acceptReadline n s).io = { beginOp n s.io with successWritten := true } := rfl
@[simp] theorem acceptReadline_ce (n : Arg) (s : State) : (acceptReadline n s).ce = s.ce := rfl
@[simp] theorem acceptReadline_fb (n : Arg) (s : State) : (acceptReadline n s).fb = s.fb := rfl
@[simp] theorem acceptReadline_lr (n : Arg) (s : State) :
    (acceptReadline n s).lr = { s.lr with lbuf := Buffer.clear, success := false, timeout := n, phase := .start } := rfl
@[simp] theorem acceptReadline_world (n : Arg) (s : State) :
    (acceptReadline n s).world = s.world := rfl
@[simp] theorem acceptReadline_host (n : Arg) (s : State) :
    (acceptReadline n s).host = s.host := rfl
@[simp] theorem acceptReadline_params (n : Arg) (s : State) :
    (acceptReadline n s).params = s.params := rfl

/-! ## withFetchWord -/

@[simp] theorem withFetchWord_io (s : State) (k w : Nat) :
    (s.withFetchWord k w).io = { s.io with cmd := some (BitVec.ofNat 34 (w % 2 ^ k)) } := rfl
@[simp] theorem withFetchWord_ce (s : State) (k w : Nat) :
    (s.withFetchWord k w).ce = s.ce := rfl
@[simp] theorem withFetchWord_fb (s : State) (k w : Nat) :
    (s.withFetchWord k w).fb = s.fb := rfl
@[simp] theorem withFetchWord_lr (s : State) (k w : Nat) :
    (s.withFetchWord k w).lr = s.lr := rfl
@[simp] theorem withFetchWord_world (s : State) (k w : Nat) :
    (s.withFetchWord k w).world = s.world := rfl
@[simp] theorem withFetchWord_host (s : State) (k w : Nat) :
    (s.withFetchWord k w).host = s.host := rfl
@[simp] theorem withFetchWord_params (s : State) (k w : Nat) :
    (s.withFetchWord k w).params = s.params := rfl

/-! ## lrStart -/

@[simp] theorem lrStart_io (s : State) : (lrStart s).io = s.io := rfl
@[simp] theorem lrStart_ce (s : State) : (lrStart s).ce = s.ce := rfl
@[simp] theorem lrStart_fb (s : State) : (lrStart s).fb = s.fb := rfl
@[simp] theorem lrStart_lr (s : State) :
    (lrStart s).lr = { s.lr with tStart := clockNow s.world, phase := .check } := rfl
@[simp] theorem lrStart_world (s : State) : (lrStart s).world = s.world := rfl
@[simp] theorem lrStart_host (s : State) : (lrStart s).host = s.host := rfl
@[simp] theorem lrStart_params (s : State) : (lrStart s).params = s.params := rfl

/-! ## lrDone -/

@[simp] theorem lrDone_io (s : State) : (lrDone s).io = finishOp s.io := rfl
@[simp] theorem lrDone_ce (s : State) : (lrDone s).ce = s.ce := rfl
@[simp] theorem lrDone_fb (s : State) : (lrDone s).fb = s.fb := rfl
@[simp] theorem lrDone_lr (s : State) : (lrDone s).lr = { s.lr with phase := .idle } := rfl
@[simp] theorem lrDone_world (s : State) : (lrDone s).world = s.world := rfl
@[simp] theorem lrDone_host (s : State) : (lrDone s).host = s.host := rfl
@[simp] theorem lrDone_params (s : State) : (lrDone s).params = s.params := rfl

end Sys2Proof.Machine
end

