-- ==== Sys2Proof/Laws/Steps.lean ====
section
/-! SUPPORT. What one step can do: one lemma for each function the step is made of, saying every way it
can answer a next state. -/

namespace Sys2Proof.Machine

/-! ## The sequencer -/

theorem step_pending (s : State) (w : CmdWord) (h : s.io.cmd = some w) :
    step s = exec (decodeWord w) { s with io := { s.io with cmd := none }, world := s.world.move } := by
  simp [step, fetch, h]

theorem step_advance (s : State) (h : s.io.cmd = none) : step s = advance (envMove s) := by
  simp [step, fetch, h]

theorem undisturbed_iff (s : State) :
    undisturbed s = true ↔ s.io.cmd = none ∧ hostBlocked s = true := by
  simp [undisturbed]

theorem hostDue_blocked (s : State) (h : hostBlocked s = true) (hb : s.io.busy = true) :
    hostDue s = none := by
  unfold hostBlocked at h
  unfold hostDue
  split at h <;> simp_all

theorem queueTick_blocked (s : State) (h : hostBlocked s = true) :
    withQueue (queueTick s.host.queue) s = s := by
  have hq : queueTick s.host.queue = s.host.queue := by
    unfold hostBlocked at h
    unfold queueTick
    split at h <;> simp_all
  rw [hq]
  rfl

/-- While the block is busy and undisturbed, a step is a move of the environment and one row of the
active unit's table. -/
theorem step_busy (s : State) (hu : undisturbed s = true) (hb : s.io.busy = true) :
    step s = unitMicro (envMove s) := by
  obtain ⟨hc, hh⟩ := (undisturbed_iff s).mp hu
  have hq := queueTick_blocked (envMove s) hh
  rw [envMove_host] at hq
  simp [step_advance s hc, advance, hostDue_blocked s hh hb, hq, blockStep, hb]

/-- Every way a step answers a next state: each begins with a move of the environment. -/
theorem step_cases {s t : State} (h : step s = .next t) :
    (∃ w, s.io.cmd = some w ∧
      exec (decodeWord w) { envMove s with io := { s.io with cmd := none } } = .next t) ∨
    (s.io.cmd = none ∧ ∃ a rest, hostDue s = some (a, rest) ∧
      hostAct a (withQueue rest (envMove s)) = .next t) ∨
    (s.io.cmd = none ∧ hostDue s = none ∧ s.io.busy = true ∧
      unitMicro (withQueue (queueTick s.host.queue) (envMove s)) = .next t) ∨
    (s.io.cmd = none ∧ hostDue s = none ∧ s.io.busy = false ∧
      t = withQueue (queueTick s.host.queue) (envMove s)) := by
  cases hc : s.io.cmd with
  | some w => exact .inl ⟨w, rfl, (step_pending s w hc).symm.trans h⟩
  | none =>
    rw [step_advance s hc] at h
    unfold advance at h
    rw [hostDue_envMove, envMove_host] at h
    cases hd : hostDue s with
    | some p =>
      obtain ⟨a, rest⟩ := p
      rw [hd] at h
      exact .inr (.inl ⟨rfl, a, rest, rfl, h⟩)
    | none =>
      rw [hd] at h
      cases hb : s.io.busy with
      | true =>
        simp only [blockStep, withQueue_io, envMove_io, hb, if_true] at h
        exact .inr (.inr (.inl ⟨rfl, rfl, rfl, h⟩))
      | false =>
        simp only [blockStep, withQueue_io, envMove_io, hb, Bool.false_eq_true, if_false] at h
        injection h with h
        exact .inr (.inr (.inr ⟨rfl, rfl, rfl, h.symm⟩))

/-! ## The commands -/

/-- Every way a command answers a next state. -/
theorem exec_cases {i : Instr} {s t : State} (h : exec i s = .next t) :
    (∃ a, i = .idle a ∧ t = s) ∨
    (s.io.busy = false ∧
      ((∃ n, i = .crc16 n ∧ operandMissing n.toNat s = false ∧ t = acceptCrc16 n s) ∨
       (∃ n, i = .build n ∧ n.toNat ≤ maxMnemonic ∧ operandMissing n.toNat s = false ∧
          t = acceptBuild n s) ∨
       (∃ n, i = .readline n ∧ t = acceptReadline n s))) := by
  cases i with
  | idle a =>
    simp only [exec, execIdle] at h
    injection h with h
    exact .inl ⟨a, rfl, h.symm⟩
  | crc16 n =>
    simp only [exec, execCrc16] at h
    split at h
    · cases h
    · rename_i hb
      split at h
      · cases h
      · rename_i ho
        injection h with h
        exact .inr ⟨by simpa using hb, .inl ⟨n, rfl, by simpa using ho, h.symm⟩⟩
  | build n =>
    simp only [exec, execBuild] at h
    split at h
    · cases h
    · rename_i hb
      split at h
      · cases h
      · rename_i hl
        split at h
        · cases h
        · rename_i ho
          injection h with h
          exact .inr ⟨by simpa using hb,
            .inr (.inl ⟨n, rfl, by omega, by simpa using ho, h.symm⟩)⟩
  | readline n =>
    simp only [exec, execReadline] at h
    split at h
    · cases h
    · rename_i hb
      injection h with h
      exact .inr ⟨by simpa using hb, .inr (.inr ⟨n, rfl, h.symm⟩)⟩

theorem exec_ne_fault (i : Instr) (s : State) (f : Fault) : exec i s ≠ .fault f := by
  cases i <;> simp only [exec, execIdle, execCrc16, execBuild, execReadline] <;>
    (repeat' split) <;> simp

theorem operandMissing_false {n : Nat} {s : State} :
    operandMissing n s = false ↔ n ≤ s.io.ibufWritten.length ∧
      n ≤ (Memory.leading s.io.ibuf).length ∧ exceedsIbufCap n s.params = false := by
  simp [operandMissing, and_assoc]

/-! ## The host -/

/-- A host write keeps the canonical form of the operand buffer. -/
theorem writeIbuf_wf (i : Nat) (bs : List Byte) (io : IoRegs) (h : Memory.wf io.ibuf = true) :
    Memory.wf (writeIbuf i bs io).ibuf = true := writeFrom_wf i bs h

theorem handBack_next {v : Nat} {s t : State} (h : handBack v s = .next t) :
    t = { s with host := { s.host with got := s.host.got ++ [v] } } := by
  simpa [handBack] using h.symm

/-- A read changes nothing but what the host has got. -/
theorem hostRead_next {r : HostReg} {s t : State} (h : hostRead r s = .next t) :
    ∃ v, t = { s with host := { s.host with got := s.host.got ++ [v] } } := by
  cases r <;> simp only [hostRead, handBackIf, readByte] at h <;> (repeat' split at h) <;>
    first | exact ⟨_, handBack_next h⟩ | cases h

/-- A call of `T.read` takes the oldest waiting byte and changes nothing else but what the host has
got. -/
theorem hostTakeByte_next {s t : State} (h : hostTakeByte s = .next t) :
    ∃ b rest, s.world.rxq = b :: rest ∧
      t = { s with world := { s.world with rxq := rest },
                   host := { s.host with got := s.host.got ++ [b.toNat] } } := by
  simp only [hostTakeByte, tRead] at h
  split at h
  · rename_i b w heq
    split at heq
    · cases heq
    · rename_i b' rest hrx
      injection heq with heq
      obtain ⟨rfl, rfl⟩ := Prod.mk.inj heq
      exact ⟨_, rest, hrx, handBack_next h⟩
  · cases h

/-- What a host's write of the Frame hands on is `FBUF` while no BUILD runs (R59, R92). -/
theorem visibleFrame_idle {s : State} (h : s.fb.phase = .idle) : visibleFrame s = s.fb.fbuf := by
  simp [visibleFrame, makingFrame, h]

/-- While BUILD runs it is some bytes whose number fits `FRAME_LEN` (R26, log 32). -/
theorem visibleFrame_length {s : State} (h : s.fb.phase ≠ .idle) :
    (visibleFrame s).length < 2 ^ 11 := by
  simp [visibleFrame, makingFrame, h]

/-- Every way a host action answers a next state. -/
theorem hostAct_cases {a : HostAction} {s t : State} (h : hostAct a s = .next t) :
    (∃ i bs, a = .writeIbuf i bs ∧ s.io.busy = false ∧
      t = { s with io := writeIbuf i bs s.io }) ∨
    (∃ w, a = .writeCmd w ∧ t = { s with io := { s.io with cmd := some w } }) ∨
    (∃ v, t = { s with host := { s.host with got := s.host.got ++ [v] } }) ∨
    (∃ bs, (a = .transmit bs ∨ a = .transmitFrame ∧ bs = visibleFrame s) ∧
      t = { s with world := tWrite bs s.world }) ∨
    (∃ b rest, a = .takeByte ∧ s.lr.phase = .idle ∧ s.world.rxq = b :: rest ∧
      t = { s with world := { s.world with rxq := rest },
                   host := { s.host with got := s.host.got ++ [b.toNat] } }) ∨
    (a = .reset ∧ t = resetBlock s) := by
  cases a with
  | writeIbuf i bs =>
    simp only [hostAct] at h
    split at h
    · cases h
    · rename_i hb
      injection h with h
      exact .inl ⟨i, bs, rfl, by simpa using hb, h.symm⟩
  | writeCmd w =>
    injection h with h
    exact .inr (.inl ⟨w, rfl, h.symm⟩)
  | readReg r => exact .inr (.inr (.inl (hostRead_next h)))
  | writeReg r => cases h
  | transmit bs =>
    injection h with h
    exact .inr (.inr (.inr (.inl ⟨bs, .inl rfl, h.symm⟩)))
  | transmitFrame =>
    injection h with h
    exact .inr (.inr (.inr (.inl ⟨_, .inr ⟨rfl, rfl⟩, h.symm⟩)))
  | pollAvail =>
    simp only [hostAct] at h
    split at h
    · cases h
    · exact .inr (.inr (.inl ⟨_, handBack_next h⟩))
  | takeByte =>
    simp only [hostAct] at h
    split at h
    · cases h
    · rename_i hm
      obtain ⟨b, rest, hrx, ht⟩ := hostTakeByte_next h
      exact .inr (.inr (.inr (.inr (.inl ⟨b, rest, rfl, by simpa [makingLine] using hm, hrx, ht⟩))))
  | reset =>
    injection h with h
    exact .inr (.inr (.inr (.inr (.inr ⟨rfl, h.symm⟩))))

theorem hostAct_ne_fault (a : HostAction) (s : State) (f : Fault) : hostAct a s ≠ .fault f := by
  cases a <;> simp only [hostAct, hostRead, hostTakeByte, handBackIf, readByte, handBack] <;>
    (repeat' split) <;> simp

/-! ## The CRC Engine -/

/-- Every way a row of R116 answers a next state. -/
theorem crcMicro_cases {s t : State} (h : crcMicro s = .next t) :
    (s.ce.phase = .idle ∧ s.fb.phase = .crcRun ∧ t = { s with ce := crcStart s.ce }) ∨
    (s.ce.phase = .load ∧ s.ce.idx < engineLen s ∧
      ∃ b, Buffer.read (engineBuffer s) s.ce.idx = some b ∧ t = { s with ce := crcLoad b s.ce }) ∨
    (s.ce.phase = .load ∧ engineLen s ≤ s.ce.idx ∧
      t = { s with ce := { s.ce with phase := .done } }) ∨
    (s.ce.phase = .shift ∧ s.ce.bitcnt < crcSteps ∧ t = { s with ce := crcShift s.ce }) ∨
    (s.ce.phase = .shift ∧ crcSteps ≤ s.ce.bitcnt ∧ t = { s with ce := crcNextByte s.ce }) ∨
    (s.ce.phase = .done ∧ s.fb.phase = .crcRun ∧
      t = { s with ce := { s.ce with phase := .idle }, fb := { s.fb with phase := .crcHi } }) ∨
    (s.ce.phase = .done ∧ s.fb.phase ≠ .crcRun ∧
      t = { s with ce := { s.ce with phase := .idle }, io := finishOp s.io }) := by
  unfold crcMicro at h
  cases hp : s.ce.phase <;> simp only [hp] at h <;> (repeat' split at h) <;>
    first
    | cases h; done
    | (injection h with h; subst h; simp_all)

/-! ## The Line Reader -/

/-- Every way a row of R157 answers a next state. -/
theorem lrMicro_cases {s t : State} (h : lrMicro s = .next t) :
    (s.lr.phase = .start ∧ t = lrStart s) ∨
    (s.lr.phase = .check ∧ t = lrCheck s) ∨
    (s.lr.phase = .poll ∧ tAvail s.world = true ∧ lineFull s = false ∧
      t = { s with lr := { s.lr with phase := .recv } }) ∨
    (s.lr.phase = .poll ∧ tAvail s.world = false ∧
      t = { s with lr := { s.lr with tBk := clockNow s.world, phase := .backoff } }) ∨
    (s.lr.phase = .recv ∧ ∃ b rest, s.world.rxq = b :: rest ∧
      t = { s with lr := lrAccept b s.lr, world := { s.world with rxq := rest } }) ∨
    (s.lr.phase = .backoff ∧ t = lrBackoff s) ∨
    (s.lr.phase = .done ∧ t = lrDone s) := by
  unfold lrMicro at h
  cases hp : s.lr.phase <;> simp only [hp] at h
  case idle => cases h
  case poll =>
    unfold lrPoll at h
    (repeat' split at h)
    · cases h
    · injection h with h; subst h; simp_all
    · injection h with h; subst h; simp_all
  case recv =>
    simp only [lrRecv, tRead] at h
    split at h
    · rename_i b w heq
      split at heq
      · cases heq
      · rename_i b' rest hrx
        injection heq with heq
        obtain ⟨rfl, rfl⟩ := Prod.mk.inj heq
        injection h with h
        subst h
        simp_all
    · cases h
  all_goals (injection h with h; subst h; simp)

theorem lineFull_false_iff (s : State) :
    lineFull s = false ↔ ∀ c, s.params.lineCap = some c → lineLen s < c := by
  unfold lineFull
  split <;> simp_all

theorem lrPoll_receives {s : State} (h : s.world.rxq ≠ []) (hf : lineFull s = false) :
    lrPoll s = .next { s with lr := { s.lr with phase := .recv } } := by
  simp [lrPoll, tAvail, h, hf]

theorem lrPoll_refuses {s : State} (h : s.world.rxq ≠ []) (hf : lineFull s = true) :
    lrPoll s = .refused .lineCapExceeded := by
  simp [lrPoll, tAvail, h, hf]

theorem lrPoll_backs_off {s : State} (h : s.world.rxq = []) :
    lrPoll s = .next { s with lr := { s.lr with tBk := clockNow s.world, phase := .backoff } } := by
  simp [lrPoll, tAvail, h]

theorem lrRecv_takes {s : State} {b : Byte} {rest : List Byte} (h : s.world.rxq = b :: rest) :
    lrRecv s = .next { s with lr := lrAccept b s.lr, world := { s.world with rxq := rest } } := by
  simp [lrRecv, tRead, h]

/-! ## Frames of the units' rows -/

/-- What no row of a unit changes, and how `BUSY` and `DONE` move when one does (R26, R51, R59, R62). -/
structure RowFrame (s t : State) : Prop where
  params : t.params = s.params
  host : t.host = s.host
  txq : t.world.txq = s.world.txq
  clock : t.world.clock = s.world.clock
  ibuf : t.io.ibuf = s.io.ibuf
  arg : t.io.arg = s.io.arg
  ends : t.io = s.io ∨ t.io.busy = false ∧ t.io.done = true

/-- What a row of the CRC Engine leaves unchanged. -/
theorem crcMicro_frame {s t : State} (h : crcMicro s = .next t) :
    RowFrame s t ∧ t.lr = s.lr ∧ t.world = s.world ∧ (t.fb = s.fb ∨ s.fb.phase = .crcRun) := by
  rcases crcMicro_cases h with ⟨hp, hr, rfl⟩ | ⟨hp, hi, b, hrd, rfl⟩ | ⟨hp, hi, rfl⟩ |
    ⟨hp, hk, rfl⟩ | ⟨hp, hk, rfl⟩ | ⟨hp, hr, rfl⟩ | ⟨hp, hr, rfl⟩
  case inr.inr.inr.inr.inr.inl =>
    exact ⟨⟨rfl, rfl, rfl, rfl, rfl, rfl, .inl rfl⟩, rfl, rfl, .inr hr⟩
  case inr.inr.inr.inr.inr.inr =>
    exact ⟨⟨rfl, rfl, rfl, rfl, rfl, rfl, .inr ⟨rfl, rfl⟩⟩, rfl, rfl, .inl rfl⟩
  all_goals exact ⟨⟨rfl, rfl, rfl, rfl, rfl, rfl, .inl rfl⟩, rfl, rfl, .inl rfl⟩

/-- What a row of the Frame Builder leaves unchanged. -/
theorem fbMicro_frame {s t : State} (h : fbMicro s = .next t) :
    RowFrame s t ∧ s.fb.phase ≠ .idle ∧ t.lr = s.lr ∧ t.world = s.world := by
  unfold fbMicro at h
  cases hp : s.fb.phase <;> simp only [hp] at h
  case crcRun =>
    obtain ⟨hf, hl, hw, -⟩ := crcMicro_frame h
    exact ⟨hf, by simp, hl, hw⟩
  case done =>
    cases h
    exact ⟨⟨rfl, rfl, rfl, rfl, rfl, rfl, .inr ⟨rfl, rfl⟩⟩, by simp, rfl, rfl⟩
  all_goals (repeat' split at h)
  all_goals first
    | (cases h; done)
    | (cases h; exact ⟨⟨rfl, rfl, rfl, rfl, rfl, rfl, .inl rfl⟩, by simp, rfl, rfl⟩)

/-- What a row of the Line Reader leaves unchanged, and what it does to the receive stream and the
accumulator together: at most one byte goes from the head of the one to the end of the other (R153). -/
theorem lrMicro_frame {s t : State} (h : lrMicro s = .next t) :
    RowFrame s t ∧ s.lr.phase ≠ .idle ∧ t.ce = s.ce ∧ t.fb = s.fb ∧
    ∃ taken, s.world.rxq = taken ++ t.world.rxq ∧
      t.lr.lbuf = s.lr.lbuf ++ taken ∧ taken.length ≤ 1 ∧ (taken ≠ [] → s.lr.phase = .recv) := by
  have hno : ∃ taken, s.world.rxq = taken ++ s.world.rxq ∧
      s.lr.lbuf = s.lr.lbuf ++ taken ∧ taken.length ≤ 1 ∧ (taken ≠ [] → s.lr.phase = .recv) :=
    ⟨[], by simp⟩
  rcases lrMicro_cases h with ⟨hp, rfl⟩ | ⟨hp, rfl⟩ | ⟨hp, ha, hfull, rfl⟩ | ⟨hp, ha, rfl⟩ |
    ⟨hp, b, rest, hrx, rfl⟩ | ⟨hp, rfl⟩ | ⟨hp, rfl⟩
  · exact ⟨⟨rfl, rfl, rfl, rfl, rfl, rfl, .inl rfl⟩, by simp [hp], rfl, rfl, hno⟩
  · unfold lrCheck
    split <;> exact ⟨⟨rfl, rfl, rfl, rfl, rfl, rfl, .inl rfl⟩, by simp [hp], rfl, rfl, hno⟩
  · exact ⟨⟨rfl, rfl, rfl, rfl, rfl, rfl, .inl rfl⟩, by simp [hp], rfl, rfl, hno⟩
  · exact ⟨⟨rfl, rfl, rfl, rfl, rfl, rfl, .inl rfl⟩, by simp [hp], rfl, rfl, hno⟩
  · refine ⟨⟨rfl, rfl, rfl, rfl, rfl, rfl, .inl rfl⟩, by simp [hp], rfl, rfl, [b], hrx, ?_, by simp,
      fun _ => hp⟩
    unfold lrAccept
    split <;> rfl
  · unfold lrBackoff
    split <;> exact ⟨⟨rfl, rfl, rfl, rfl, rfl, rfl, .inl rfl⟩, by simp [hp], rfl, rfl, hno⟩
  · exact ⟨⟨rfl, rfl, rfl, rfl, rfl, rfl, .inr ⟨rfl, rfl⟩⟩, by simp [hp], rfl, rfl, hno⟩

/-- Which unit's row a micro-step is (R20, R24). -/
theorem unitMicro_cases {s t : State} (h : unitMicro s = .next t) :
    (s.lr.phase ≠ .idle ∧ lrMicro s = .next t) ∨
    (s.lr.phase = .idle ∧ s.fb.phase ≠ .idle ∧ fbMicro s = .next t) ∨
    (s.lr.phase = .idle ∧ s.fb.phase = .idle ∧ crcMicro s = .next t) := by
  unfold unitMicro at h
  split at h
  · exact .inl ⟨‹_›, h⟩
  · split at h
    · exact .inr (.inl ⟨by simp_all, ‹_›, h⟩)
    · exact .inr (.inr ⟨by simp_all, by simp_all, h⟩)

/-! ## The units do not look at the host -/

/-- An outcome with its next state, if it has one, changed by `f`. -/
def onNext (f : State → State) : Host.Outcome State Fault Refusal → Host.Outcome State Fault Refusal
  | .next t => .next (f t)
  | .fault x => .fault x
  | .refused r => .refused r

theorem crcMicro_withQueue (q : List HostMove) (s : State) :
    crcMicro (withQueue q s) = onNext (withQueue q) (crcMicro s) := by
  unfold crcMicro
  rw [show engineLen (withQueue q s) = engineLen s from rfl,
    show engineBuffer (withQueue q s) = engineBuffer s from rfl]
  simp only [withQueue_ce, withQueue_fb]
  cases s.ce.phase <;> cases Buffer.read (engineBuffer s) s.ce.idx <;>
    simp only [apply_ite (onNext (withQueue q))] <;> rfl

theorem fbMicro_withQueue (q : List HostMove) (s : State) :
    fbMicro (withQueue q s) = onNext (withQueue q) (fbMicro s) := by
  unfold fbMicro
  rw [show operandLen (withQueue q s) = operandLen s from rfl]
  simp only [withQueue_fb, withQueue_io, crcMicro_withQueue]
  cases s.fb.phase <;> cases Buffer.read (Memory.leading s.io.ibuf) s.fb.idx <;>
    simp only [apply_ite (onNext (withQueue q))] <;> rfl

theorem lrCheck_withQueue (q : List HostMove) (s : State) :
    lrCheck (withQueue q s) = withQueue q (lrCheck s) := by
  simp only [lrCheck, apply_ite (withQueue q)]
  rfl

theorem lrBackoff_withQueue (q : List HostMove) (s : State) :
    lrBackoff (withQueue q s) = withQueue q (lrBackoff s) := by
  simp only [lrBackoff, apply_ite (withQueue q)]
  rfl

theorem lrMicro_withQueue (q : List HostMove) (s : State) :
    lrMicro (withQueue q s) = onNext (withQueue q) (lrMicro s) := by
  unfold lrMicro lrPoll lrRecv
  rw [show lineFull (withQueue q s) = lineFull s from rfl, lrCheck_withQueue, lrBackoff_withQueue]
  simp only [withQueue_lr, withQueue_world]
  cases s.lr.phase <;> cases tRead s.world <;>
    simp only [apply_ite (onNext (withQueue q))] <;> rfl

/-- A row of a unit neither reads nor writes the host's moves. -/
theorem unitMicro_withQueue (q : List HostMove) (s : State) :
    unitMicro (withQueue q s) = onNext (withQueue q) (unitMicro s) := by
  unfold unitMicro
  simp only [withQueue_lr, withQueue_fb, lrMicro_withQueue, fbMicro_withQueue, crcMicro_withQueue,
    apply_ite (onNext (withQueue q))]

end Sys2Proof.Machine
end

