-- ==== Sys2Proof/Laws/Runs.lean ====
section
/-! SUPPORT. Runs of several steps, and the run of the CRC Engine over a span. -/

namespace Sys2Proof.Machine

/-! ## Runs -/

@[simp] theorem runFor_zero (s : State) : runFor 0 s = .next s := rfl

theorem runFor_succ {s t : State} (k : Nat) (h : step s = .next t) :
    runFor (k + 1) s = runFor k t := by
  simp [runFor, h]

theorem runFor_trans {s t : State} {j : Nat} (k : Nat) (h : runFor j s = .next t) :
    runFor (j + k) s = runFor k t := by
  induction j generalizing s with
  | zero => simp only [runFor_zero, Host.Outcome.next.injEq] at h; simp [h]
  | succ j ih =>
    rw [show j + 1 + k = (j + k) + 1 by omega]
    cases hs : step s with
    | next u =>
      rw [runFor_succ _ hs] at h ⊢
      exact ih h
    | fault f => simp [runFor, hs] at h
    | refused r => simp [runFor, hs] at h

@[simp] theorem runFor_one (s : State) : runFor 1 s = step s := by
  unfold runFor
  cases step s <;> rfl

/-- A run and then one more step. -/
theorem runFor_snoc {s t u : State} {k : Nat} (h : runFor k s = .next t) (hs : step t = .next u) :
    runFor (k + 1) s = .next u := by
  rw [runFor_trans 1 h, runFor_succ 0 hs, runFor_zero]

/-! ## The CRC Engine -/

/-- The block is busy and undisturbed and its active unit's row is a row of the CRC Engine. -/
structure EngineActive (s : State) : Prop where
  undisturbed : undisturbed s = true
  busy : s.io.busy = true
  reader : s.lr.phase = .idle
  builder : s.fb.phase = .idle ∨ s.fb.phase = .crcRun

theorem EngineActive.withCe {s : State} (h : EngineActive s) (ce : CrcRegs) (w : World) :
    EngineActive { s with ce := ce, world := w } :=
  ⟨h.undisturbed, h.busy, h.reader, h.builder⟩

/-- A step of an active engine: the environment's move and one row of R116. -/
theorem step_engine {s : State} (h : EngineActive s) : step s = crcMicro (envMove s) := by
  rw [step_busy s h.undisturbed h.busy, unitMicro]
  rcases h.builder with hf | hf <;> simp [h.reader, hf, fbMicro]

/-- The shift steps of one byte. -/
theorem engine_shifts {s : State} (h : EngineActive s) (hp : s.ce.phase = .shift) (k : Nat)
    (hk : s.ce.bitcnt + k ≤ crcSteps) :
    runFor k s = .next { s with ce := { s.ce with crc := shiftSteps k s.ce.crc,
                                                  bitcnt := s.ce.bitcnt + k },
                                world := s.world.moves k } := by
  induction k generalizing s with
  | zero => rfl
  | succ k ih =>
    have hs : step s = .next { s with ce := crcShift s.ce, world := s.world.move } := by
      simp [step_engine h, crcMicro, hp, show s.ce.bitcnt < crcSteps by omega]
    have hr := ih (h.withCe (crcShift s.ce) s.world.move) hp (by simp; omega)
    rw [runFor_succ k hs, hr]
    simp [shiftSteps, crcShift, Nat.add_comm 1, Nat.add_assoc]

/-- One byte of the span takes ten steps: the load, the eight shifts, and the index. -/
theorem engine_byte {s : State} (h : EngineActive s) (hp : s.ce.phase = .load)
    (hi : s.ce.idx < engineLen s) {b : Byte} (hb : Buffer.read (engineBuffer s) s.ce.idx = some b) :
    runFor 10 s = .next { s with ce := { phase := .load, crc := crcByte s.ce.crc b,
                                         idx := s.ce.idx + 1, bitcnt := crcSteps },
                                 world := s.world.moves 10 } := by
  have hs : step s = .next { s with ce := crcLoad b s.ce, world := s.world.move } := by
    simp [step_engine h, crcMicro, hp, hi, hb]
  have h8 := engine_shifts (h.withCe (crcLoad b s.ce) s.world.move) rfl 8 (by simp [crcSteps])
  rw [show (10 : Nat) = 9 + 1 by rfl, runFor_succ 9 hs, show (9 : Nat) = 8 + 1 by rfl,
    runFor_trans 1 h8]
  refine runFor_succ 0 ?_
  rw [step_engine (h.withCe _ _)]
  simp [crcMicro, crcNextByte, crcLoad, crcSteps, crcByte, moves_move]

/-- The engine's run over the rest of its span, from phase LOAD to phase DONE (R110, R116). -/
theorem engine_span {s : State} (h : EngineActive s) (hp : s.ce.phase = .load) (k : Nat)
    (hk : s.ce.idx + k = engineLen s) (hl : engineLen s ≤ (engineBuffer s).length) :
    runFor (10 * k + 1) s = .next
      { s with
        ce := { phase := .done, crc := crcFrom s.ce.crc ((engineSpan s).drop s.ce.idx),
                idx := engineLen s, bitcnt := if k = 0 then s.ce.bitcnt else crcSteps },
        world := s.world.moves (10 * k + 1) } := by
  induction k generalizing s with
  | zero =>
    have hd : (engineSpan s).drop s.ce.idx = [] := by
      apply List.drop_eq_nil_of_le
      simp [engineSpan, Buffer.span]
      omega
    have hs : step s = .next { s with ce := { s.ce with phase := .done }, world := s.world.move } := by
      simp [step_engine h, crcMicro, hp, show ¬ s.ce.idx < engineLen s by omega]
    rw [hd, runFor_succ 0 hs]
    simp [← hk, ← moves_move]
  | succ k ih =>
    have hi : s.ce.idx < engineLen s := by omega
    have hib : s.ce.idx < (engineBuffer s).length := by omega
    have hb := read_isSome (engineBuffer s) s.ce.idx hib
    have h10 := engine_byte h hp hi hb
    have hspan : s.ce.idx < (engineSpan s).length := by
      simp [engineSpan, Buffer.span]
      omega
    have hd : (engineSpan s).drop s.ce.idx =
        (engineBuffer s)[s.ce.idx] :: (engineSpan s).drop (s.ce.idx + 1) := by
      rw [List.drop_eq_getElem_cons hspan]
      simp [engineSpan, Buffer.span]
    have hr := ih (h.withCe ⟨.load, crcByte s.ce.crc (engineBuffer s)[s.ce.idx],
      s.ce.idx + 1, crcSteps⟩ (s.world.moves 10)) rfl
      (show s.ce.idx + 1 + k = engineLen s by omega) hl
    rw [show 10 * (k + 1) + 1 = 10 + (10 * k + 1) by ring, runFor_trans _ h10, hr, hd,
      crcFrom_cons]
    simp [engineSpan, engineBuffer, engineLen, operandLen, moves_moves]

/-! ## The Frame Builder -/

/-- The block is busy and undisturbed and its active unit is the Frame Builder, outside `CRCRUN`. -/
structure BuilderActive (s : State) : Prop where
  undisturbed : undisturbed s = true
  busy : s.io.busy = true
  reader : s.lr.phase = .idle

theorem BuilderActive.withFb {s : State} (h : BuilderActive s) (fb : FbRegs) (w : World) :
    BuilderActive { s with fb := fb, world := w } :=
  ⟨h.undisturbed, h.busy, h.reader⟩

/-- A step of an active builder: the environment's move and one row of R140. -/
theorem step_builder {s : State} (h : BuilderActive s) (hf : s.fb.phase ≠ .idle) :
    step s = fbMicro (envMove s) := by
  rw [step_busy s h.undisturbed h.busy, unitMicro]
  simp [h.reader, hf]

/-- The six steps from LENCALC to MNEM: the length, the marker and the three digits. -/
theorem builder_head {s : State} (h : BuilderActive s) (hp : s.fb.phase = .lenCalc)
    (hb : s.fb.fbuf = []) :
    runFor 6 s = .next
      { s with
        fb := { phase := .mnem, len := lengthField (operandLen s), idx := 0,
                fbuf := [markerCaret, markerP] ++ lengthDigits (lengthField (operandLen s)) },
        world := s.world.moves 6 } := by
  have hs (fb : FbRegs) (w : World) (hne : fb.phase ≠ .idle) :
      step { s with fb := fb, world := w } = fbMicro { s with fb := fb, world := w.move } :=
    step_builder (h.withFb fb w) hne
  have h0 : step s = fbMicro { s with world := s.world.move } := step_builder h (by simp [hp])
  simp [runFor, h0, hs, fbMicro, hp, hb, fbAppend, Buffer.append, lengthDigits, operandLen,
    World.moves]

/-- The copy of the rest of the mnemonic, and the step to `CRCRUN` (R135). -/
theorem builder_mnemonic {s : State} (h : BuilderActive s) (hp : s.fb.phase = .mnem) (k : Nat)
    (hk : s.fb.idx + k = operandLen s) (hl : operandLen s ≤ (Memory.leading s.io.ibuf).length) :
    runFor (k + 1) s = .next
      { s with
        fb := { phase := .crcRun, len := s.fb.len, idx := operandLen s,
                fbuf := s.fb.fbuf ++ (operand s).drop s.fb.idx },
        world := s.world.moves (k + 1) } := by
  induction k generalizing s with
  | zero =>
    have hd : (operand s).drop s.fb.idx = [] := by
      apply List.drop_eq_nil_of_le
      simp [operand, Buffer.span]
      omega
    have hs : step s = .next { s with fb := { s.fb with phase := .crcRun }, world := s.world.move } := by
      simp [step_builder h, fbMicro, hp, show ¬ s.fb.idx < operandLen s by omega]
    rw [hd, runFor_succ 0 hs]
    simp [← hk, ← moves_move]
  | succ k ih =>
    have hi : s.fb.idx < operandLen s := by omega
    have hib : s.fb.idx < (Memory.leading s.io.ibuf).length := by omega
    have hb := read_isSome (Memory.leading s.io.ibuf) s.fb.idx hib
    have hs : step s = .next { s with fb := fbCopy (Memory.leading s.io.ibuf)[s.fb.idx] s.fb,
                                      world := s.world.move } := by
      simp [step_builder h, fbMicro, hp, hi, hb]
    have hspan : s.fb.idx < (operand s).length := by
      simp [operand, Buffer.span]
      omega
    have hd : (operand s).drop s.fb.idx =
        (Memory.leading s.io.ibuf)[s.fb.idx] :: (operand s).drop (s.fb.idx + 1) := by
      rw [List.drop_eq_getElem_cons hspan]
      simp [operand, Buffer.span]
    have hr := ih (h.withFb (fbCopy (Memory.leading s.io.ibuf)[s.fb.idx] s.fb) s.world.move) hp
      (show s.fb.idx + 1 + k = operandLen s by omega) hl
    rw [runFor_succ _ hs, hr, hd]
    simp [operand, operandLen, Buffer.append]

/-- The run of the CRC Engine inside BUILD, from `CRCRUN` to `CRCHI` (R136, R140). -/
theorem builder_crc {s : State} (h : BuilderActive s) (hp : s.fb.phase = .crcRun)
    (hc : s.ce.phase = .idle) (hl : s.fb.fbuf.length = headerLen (operandLen s)) :
    runFor (10 * headerLen (operandLen s) + 3) s = .next
      { s with
        ce := { phase := .idle, crc := crc16 s.fb.fbuf, idx := headerLen (operandLen s),
                bitcnt := crcSteps },
        fb := { s.fb with phase := .crcHi },
        world := s.world.moves (10 * headerLen (operandLen s) + 3) } := by
  have ha : EngineActive s := ⟨h.undisturbed, h.busy, h.reader, .inr hp⟩
  have hs : step s = .next { s with ce := crcStart s.ce, world := s.world.move } := by
    simp [step_engine ha, crcMicro, hc, hp]
  have hspan := engine_span (ha.withCe (crcStart s.ce) s.world.move) rfl (headerLen (operandLen s))
    (by simp [engineLen, hp, operandLen]) (by simp [engineLen, engineBuffer, hp, operandLen, hl])
  have hne : headerLen (operandLen s) ≠ 0 := by simp [headerLen]
  rw [show 10 * headerLen (operandLen s) + 3 = (10 * headerLen (operandLen s) + 1 + 1) + 1 by ring,
    runFor_succ _ hs, runFor_trans 1 hspan]
  have htake : s.fb.fbuf.take (5 + s.io.arg.toNat) = s.fb.fbuf :=
    List.take_of_length_le (by simp [hl, operandLen, headerLen])
  rw [runFor_one, step_engine (ha.withCe _ _)]
  simp [crcMicro, hp, crc16, engineSpan, engineLen, engineBuffer, Buffer.span, operandLen, htake,
    headerLen, moves_move]

/-! ## The Line Reader -/

/-- The block is busy and undisturbed and its active unit is the Line Reader. -/
structure ReaderActive (s : State) : Prop where
  undisturbed : undisturbed s = true
  busy : s.io.busy = true
  reader : s.lr.phase ≠ .idle

/-- A step of an active reader: the environment's move and one row of R157. -/
theorem step_reader {s : State} (h : ReaderActive s) : step s = lrMicro (envMove s) := by
  rw [step_busy s h.undisturbed h.busy, unitMicro]
  simp [h.reader]

/-- Elapsed time between two values of the clock less than 2^32 ms apart (R62). -/
theorem elapsed_toNat (a d : Nat) (h : d < 2 ^ 32) :
    (elapsed (BitVec.ofNat 32 (a + d)) (BitVec.ofNat 32 a)).toNat = d := by
  simp only [elapsed, BitVec.toNat_sub, BitVec.toNat_ofNat]
  omega

end Sys2Proof.Machine
end

