-- ==== Sys2Proof/Laws/Invariant.lean ====
section
/-! SUPPORT. Each kind of move keeps the invariant: one lemma for each function a step is made of. -/

namespace Sys2Proof.Machine

/-! ## What the invariant does not look at -/

theorem inv_withCmd {s : State} (h : MachineInv s) (c : Option CmdWord) :
    MachineInv { s with io := { s.io with cmd := c } } :=
  ⟨⟨h.units.quiet, h.units.active, h.units.readerAlone, h.units.engineUse, h.units.status,
      h.units.crcResult, h.units.lineResult⟩,
    ⟨h.ranges.bitcnt, h.ranges.len, h.ranges.fbIdx, h.ranges.ibuf, h.ranges.rising,
      h.ranges.written, h.ranges.operand, h.ranges.backoff⟩,
    ⟨h.engine.idx, h.engine.load, h.engine.shift, h.engine.done⟩,
    ⟨h.builder.legal, h.builder.len, h.builder.idx, h.builder.fresh, h.builder.soFar, h.builder.crc,
      h.builder.result⟩,
    ⟨h.reader.failed, h.reader.succeeded, h.reader.running, h.reader.waiting, h.reader.capacity⟩⟩

theorem inv_withHost {s : State} (h : MachineInv s) (x : HostSide) : MachineInv { s with host := x } :=
  ⟨⟨h.units.quiet, h.units.active, h.units.readerAlone, h.units.engineUse, h.units.status,
      h.units.crcResult, h.units.lineResult⟩,
    ⟨h.ranges.bitcnt, h.ranges.len, h.ranges.fbIdx, h.ranges.ibuf, h.ranges.rising,
      h.ranges.written, h.ranges.operand, h.ranges.backoff⟩,
    ⟨h.engine.idx, h.engine.load, h.engine.shift, h.engine.done⟩,
    ⟨h.builder.legal, h.builder.len, h.builder.idx, h.builder.fresh, h.builder.soFar, h.builder.crc,
      h.builder.result⟩,
    ⟨h.reader.failed, h.reader.succeeded, h.reader.running, h.reader.waiting, h.reader.capacity⟩⟩

theorem inv_withQueue {s : State} (h : MachineInv s) (q : List HostMove) : MachineInv (withQueue q s) :=
  inv_withHost h _

/-- Outside the Line Reader's receive phase the receive stream may be anything. -/
theorem inv_withWorld {s : State} (h : MachineInv s) (w : World)
    (hw : s.lr.phase = .recv → w.rxq ≠ []) : MachineInv { s with world := w } :=
  ⟨⟨h.units.quiet, h.units.active, h.units.readerAlone, h.units.engineUse, h.units.status,
      h.units.crcResult, h.units.lineResult⟩,
    ⟨h.ranges.bitcnt, h.ranges.len, h.ranges.fbIdx, h.ranges.ibuf, h.ranges.rising,
      h.ranges.written, h.ranges.operand, h.ranges.backoff⟩,
    ⟨h.engine.idx, h.engine.load, h.engine.shift, h.engine.done⟩,
    ⟨h.builder.legal, h.builder.len, h.builder.idx, h.builder.fresh, h.builder.soFar, h.builder.crc,
      h.builder.result⟩,
    ⟨h.reader.failed, h.reader.succeeded, h.reader.running,
      fun hp => ⟨hw hp, (h.reader.waiting hp).2⟩, h.reader.capacity⟩⟩

theorem inv_envMove {s : State} (h : MachineInv s) : MachineInv (envMove s) :=
  inv_withWorld h _ fun hp => move_rxq_ne_nil _ (h.reader.waiting hp).1

/-- While the block is not busy every unit is in `IDLE`, and the host may write any bytes of `IBUF`. -/
theorem inv_writeIbuf {s : State} (h : MachineInv s) (hb : s.io.busy = false) (i : Nat)
    (bs : List Byte) : MachineInv { s with io := writeIbuf i bs s.io } := by
  obtain ⟨hc, hf, hl⟩ := h.units.quiet hb
  have hw : ∀ j ∈ addIndices i bs.length s.io.ibufWritten,
      (Memory.read (Memory.writeFrom i bs s.io.ibuf) j).isSome = true := by
    intro j hj
    rw [read_writeFrom]
    split
    · simp
      omega
    · rcases (mem_addIndices _ _ _ _).mp hj with hj | hj
      · contradiction
      · exact h.ranges.written j hj
  exact ⟨⟨h.units.quiet, h.units.active, h.units.readerAlone, h.units.engineUse, h.units.status,
      h.units.crcResult, h.units.lineResult⟩,
    ⟨h.ranges.bitcnt, h.ranges.len, h.ranges.fbIdx, writeFrom_wf i bs h.ranges.ibuf,
      addIndices_rising i _ h.ranges.rising, hw, fun hx => by simp [hc, hf] at hx, h.ranges.backoff⟩,
    ⟨fun hx => absurd hc hx, fun hx => by simp [hc] at hx, fun hx => by simp [hc] at hx,
      fun hx => by simp [hc] at hx⟩,
    ⟨fun hx => absurd hf hx, fun hx => absurd hf hx, fun hx => absurd hf hx,
      fun hx => by simp [hf, beforeCopy] at hx, fun hx => absurd hf hx,
      fun hx => by simp [hf, afterCrcRun] at hx, h.builder.result⟩,
    ⟨h.reader.failed, h.reader.succeeded, h.reader.running, h.reader.waiting, h.reader.capacity⟩⟩

/-! ## Commands -/

theorem inv_acceptCrc16 {s : State} (h : MachineInv s) (n : Arg) (hb : s.io.busy = false)
    (ho : operandMissing n.toNat s = false) : MachineInv (acceptCrc16 n s) := by
  obtain ⟨hc, hf, hl⟩ := h.units.quiet hb
  have hn : n.toNat ≤ (Memory.leading s.io.ibuf).length :=
    (operandMissing_false.mp ho).2.1
  constructor
  · constructor <;> simp [hf, hl, beginOp]
  · exact ⟨h.ranges.bitcnt, h.ranges.len, h.ranges.fbIdx, h.ranges.ibuf, .nil, by simp, fun _ => hn,
      h.ranges.backoff⟩
  · constructor <;> simp [crc16]
  · exact ⟨fun hx => absurd hf hx, fun hx => absurd hf hx, fun hx => absurd hf hx,
      fun hx => by simp [hf, beforeCopy] at hx, fun hx => absurd hf hx,
      fun hx => by simp [hf, afterCrcRun] at hx, h.builder.result⟩
  · exact ⟨h.reader.failed, h.reader.succeeded, h.reader.running, h.reader.waiting,
      h.reader.capacity⟩

theorem inv_acceptBuild {s : State} (h : MachineInv s) (n : Arg) (hb : s.io.busy = false)
    (hn : n.toNat ≤ maxMnemonic) (ho : operandMissing n.toNat s = false) :
    MachineInv (acceptBuild n s) := by
  obtain ⟨hc, hf, hl⟩ := h.units.quiet hb
  have hw : n.toNat ≤ (Memory.leading s.io.ibuf).length :=
    (operandMissing_false.mp ho).2.1
  constructor
  · constructor <;> simp [hc, hl, beginOp]
  · exact ⟨h.ranges.bitcnt, h.ranges.len, h.ranges.fbIdx, h.ranges.ibuf, .nil, by simp, fun _ => hw,
      h.ranges.backoff⟩
  · constructor <;> simp [hc]
  · constructor <;> simp [afterCrcRun, beforeCopy, emitted, operandLen, beginOp, hn, Buffer.clear]
  · exact ⟨h.reader.failed, h.reader.succeeded, h.reader.running, h.reader.waiting,
      h.reader.capacity⟩

theorem inv_acceptReadline {s : State} (h : MachineInv s) (n : Arg) (hb : s.io.busy = false) :
    MachineInv (acceptReadline n s) := by
  obtain ⟨hc, hf, hl⟩ := h.units.quiet hb
  constructor
  · constructor <;> simp [hc, hf, beginOp]
  · exact ⟨h.ranges.bitcnt, h.ranges.len, h.ranges.fbIdx, h.ranges.ibuf, .nil, by simp,
      fun hx => by simp [hc, hf] at hx, h.ranges.backoff⟩
  · constructor <;> simp [hc]
  · exact ⟨fun hx => absurd hf hx, fun hx => absurd hf hx, fun hx => absurd hf hx,
      fun hx => by simp [hf, beforeCopy] at hx, fun hx => absurd hf hx,
      fun hx => by simp [hf, afterCrcRun] at hx, h.builder.result⟩
  · constructor <;> simp [Buffer.clear, lineLen]

/-- A command that answers a next state keeps the invariant. -/
theorem inv_exec {i : Instr} {s t : State} (h : MachineInv s) (he : exec i s = .next t) : MachineInv t := by
  rcases exec_cases he with ⟨_, _, rfl⟩ | ⟨hb, h1 | h2 | h3⟩
  · exact h
  · obtain ⟨n, _, ho, rfl⟩ := h1
    exact inv_acceptCrc16 h n hb ho
  · obtain ⟨n, _, hn, ho, rfl⟩ := h2
    exact inv_acceptBuild h n hb hn ho
  · obtain ⟨n, _, rfl⟩ := h3
    exact inv_acceptReadline h n hb

/-! ## The host -/

theorem inv_resetBlock {s : State} (h : MachineInv s) : MachineInv (resetBlock s) := by
  constructor <;> constructor <;>
    simp [State.reset, afterCrcRun, beforeCopy, lineLen, operandLen, Memory.wf, h.ranges.backoff]

/-- A host action that answers a next state keeps the invariant. -/
theorem inv_hostAct {a : HostAction} {s t : State} (h : MachineInv s) (ha : hostAct a s = .next t) :
    MachineInv t := by
  rcases hostAct_cases ha with ⟨i, bs, _, hb, rfl⟩ | ⟨w, _, rfl⟩ | ⟨v, rfl⟩ | ⟨bs, _, rfl⟩ |
    ⟨b, rest, _, hl, _, rfl⟩ | ⟨_, rfl⟩
  · exact inv_writeIbuf h hb i bs
  · exact inv_withCmd h _
  · exact inv_withHost h _
  · exact inv_withWorld h _ fun hp => (h.reader.waiting hp).1
  · exact inv_withHost (inv_withWorld h { s.world with rxq := rest } fun hp => by
      simp [hl] at hp) _
  · exact inv_resetBlock h

/-! ## The CRC Engine -/

theorem operand_length {s : State} (h : operandLen s ≤ (Memory.leading s.io.ibuf).length) :
    (operand s).length = operandLen s := by
  simp [operand, Buffer.span, h]

/-- What the Frame Builder has the engine run over: the finished header. -/
theorem fbuf_crcRun {s : State} (h : MachineInv s) (hp : s.fb.phase = .crcRun) :
    s.fb.fbuf = frameHeader (operand s) := by
  have hl := operand_length (h.ranges.operand (.inr (by simp [hp])))
  have hs := h.builder.soFar (by simp [hp])
  rw [hs, emitted, hp, ← hl]
  exact buildFrame_take_header _

/-- The span of a running engine holds bytes (R172). -/
theorem engineLen_le {s : State} (h : MachineInv s) (hc : s.ce.phase ≠ .idle) :
    engineLen s ≤ (engineBuffer s).length := by
  have ho := h.ranges.operand (.inl hc)
  unfold engineLen engineBuffer
  split
  · rename_i hf
    simp [fbuf_crcRun h hf, operand_length ho]
  · exact ho

theorem engineSpan_take {s : State} (i : Nat) (h : engineLen s ≤ i) :
    (engineSpan s).take i = engineSpan s :=
  List.take_of_length_le (by simp [engineSpan, Buffer.span]; omega)

/-- A row of the CRC Engine's table that changes only the engine's own registers keeps the rest of the
invariant. -/
theorem inv_engineRow {s : State} (h : MachineInv s) (hb : s.io.busy = true) (hl : s.lr.phase = .idle)
    (hf : s.fb.phase = .idle ∨ s.fb.phase = .crcRun)
    (hv : s.io.crcWritten = true) (ho : operandLen s ≤ (Memory.leading s.io.ibuf).length) (ce : CrcRegs)
    (hn : ce.phase ≠ .idle) (hbit : ce.bitcnt ≤ crcSteps) (he : EngineInv { s with ce := ce }) :
    MachineInv { s with ce := ce } := by
  refine ⟨⟨fun hx => by simp [hb] at hx, fun _ => .inl hn, fun hx => absurd hl hx, fun _ => hf,
      h.units.status, fun _ => hv, h.units.lineResult⟩,
    ⟨hbit, h.ranges.len, h.ranges.fbIdx, h.ranges.ibuf, h.ranges.rising, h.ranges.written,
      fun _ => ho, h.ranges.backoff⟩, he,
    ⟨h.builder.legal, h.builder.len, h.builder.idx, h.builder.fresh, h.builder.soFar, ?_, h.builder.result⟩,
    ⟨h.reader.failed, h.reader.succeeded, h.reader.running, h.reader.waiting, h.reader.capacity⟩⟩
  intro hx
  rcases hf with hf | hf <;> simp [hf, afterCrcRun] at hx

/-- A row of the CRC Engine's table keeps the invariant (R116). -/
theorem inv_crcMicro {s t : State} (h : MachineInv s) (hb : s.io.busy = true) (hl : s.lr.phase = .idle)
    (hf : s.fb.phase = .idle ∨ s.fb.phase = .crcRun) (hm : crcMicro s = .next t) : MachineInv t := by
  have hv (hx : s.ce.phase ≠ .idle ∨ s.fb.phase ≠ .idle) := h.units.crcResult hx
  rcases crcMicro_cases hm with ⟨hp, hr, rfl⟩ | ⟨hp, hi, b, hrd, rfl⟩ | ⟨hp, hi, rfl⟩ |
    ⟨hp, hk, rfl⟩ | ⟨hp, hk, rfl⟩ | ⟨hp, hr, rfl⟩ | ⟨hp, hr, rfl⟩
  · have hx : s.ce.phase ≠ .idle ∨ s.fb.phase ≠ .idle := .inr (by simp [hr])
    exact inv_engineRow h hb hl hf (hv hx) (h.ranges.operand hx) _ (by simp) h.ranges.bitcnt
      ⟨fun _ => Nat.zero_le _, fun _ => rfl, fun hx => by simp at hx, fun hx => by simp at hx⟩
  · have hx : s.ce.phase ≠ .idle ∨ s.fb.phase ≠ .idle := .inl (by simp [hp])
    have hcrc := h.engine.load hp
    refine inv_engineRow h hb hl hf (hv hx) (h.ranges.operand hx) _ (by simp) (Nat.zero_le _)
      ⟨fun _ => Nat.le_of_lt hi, fun hx => by simp at hx, fun _ => ⟨hi, fun b' hb' => ?_⟩,
        fun hx => by simp at hx⟩
    have hbb : b' = b := Option.some.inj (hb'.symm.trans hrd)
    subst hbb
    exact congrArg (loadByte · b') hcrc
  · have hx : s.ce.phase ≠ .idle ∨ s.fb.phase ≠ .idle := .inl (by simp [hp])
    have hcrc := h.engine.load hp
    rw [engineSpan_take _ hi] at hcrc
    exact inv_engineRow h hb hl hf (hv hx) (h.ranges.operand hx) _ (by simp) h.ranges.bitcnt
      ⟨fun _ => h.engine.idx (by simp [hp]), fun hx => by simp at hx, fun hx => by simp at hx,
        fun _ => hcrc⟩
  · have hx : s.ce.phase ≠ .idle ∨ s.fb.phase ≠ .idle := .inl (by simp [hp])
    have hsh := h.engine.shift hp
    refine inv_engineRow h hb hl hf (hv hx) (h.ranges.operand hx) _ (by simp [hp])
      (by simpa using hk)
      ⟨fun _ => h.engine.idx (by simp [hp]), fun hx => by simp [hp] at hx,
        fun _ => ⟨hsh.1, fun b hrd => ?_⟩, fun hx => by simp [hp] at hx⟩
    have hc := hsh.2 b hrd
    show shiftStep s.ce.crc = shiftSteps (s.ce.bitcnt + 1) _
    rw [shiftSteps_succ, hc]
    rfl
  · have hx : s.ce.phase ≠ .idle ∨ s.fb.phase ≠ .idle := .inl (by simp [hp])
    have hsh := h.engine.shift hp
    have hle := engineLen_le h (by simp [hp])
    have hlt : s.ce.idx < (engineBuffer s).length := lt_of_lt_of_le hsh.1 hle
    have hrd := read_isSome (engineBuffer s) s.ce.idx hlt
    have hget : (engineSpan s)[s.ce.idx]? = some (engineBuffer s)[s.ce.idx] := by
      simp [engineSpan, Buffer.span, hsh.1, hlt]
    have hc := hsh.2 _ hrd
    rw [le_antisymm h.ranges.bitcnt hk] at hc
    refine inv_engineRow h hb hl hf (hv hx) (h.ranges.operand hx) _ (by simp)
      h.ranges.bitcnt
      ⟨fun _ => hsh.1, fun _ => ?_, fun hx => by simp at hx, fun hx => by simp at hx⟩
    show s.ce.crc = crc16 ((engineSpan s).take (s.ce.idx + 1))
    rw [crc16_take_succ _ _ _ hget, hc]
    rfl
  · have hx : s.ce.phase ≠ .idle ∨ s.fb.phase ≠ .idle := .inl (by simp [hp])
    have hcrc := h.engine.done hp
    have hspan : engineSpan s = frameHeader (operand s) := by
      have hbuf : engineBuffer s = s.fb.fbuf := by simp [engineBuffer, hr]
      rw [← fbuf_crcRun h hr, engineSpan, Buffer.span, hbuf]
      refine List.take_of_length_le ?_
      simp [engineLen, hr, fbuf_crcRun h hr, operand_length (h.ranges.operand hx)]
    have hsf := h.builder.soFar (by simp [hr])
    have hlen := h.builder.len (by simp [hr]) (by simp [hr])
    have hidx := h.builder.idx (by simp [hr]) (by simp [hr])
    simp only [emitted, hr] at hsf
    exact ⟨⟨fun hx => by simp [hb] at hx, fun _ => .inr (.inl (by simp)), fun hx => absurd hl hx,
        fun hx => by simp at hx, h.units.status, fun _ => hv hx, h.units.lineResult⟩,
      ⟨h.ranges.bitcnt, h.ranges.len, h.ranges.fbIdx, h.ranges.ibuf, h.ranges.rising, h.ranges.written,
        fun _ => h.ranges.operand hx, h.ranges.backoff⟩,
      ⟨fun hx => by simp at hx, fun hx => by simp at hx, fun hx => by simp at hx,
        fun hx => by simp at hx⟩,
      ⟨fun _ => h.builder.legal (by simp [hr]), fun _ _ => hlen, fun _ _ => hidx,
        fun hx => by simp [beforeCopy] at hx, fun _ => hsf,
        fun _ => hcrc.trans (congrArg crc16 hspan), fun hx => by simp at hx⟩,
      ⟨h.reader.failed, h.reader.succeeded, h.reader.running, h.reader.waiting,
        h.reader.capacity⟩⟩
  · have hfi : s.fb.phase = .idle := hf.resolve_right hr
    exact ⟨⟨fun _ => ⟨rfl, hfi, hl⟩, fun hx => by simp at hx, fun hx => absurd hl hx,
        fun hx => by simp at hx, fun hx => by simp at hx, fun hx => by simp [hfi] at hx,
        h.units.lineResult⟩,
      ⟨h.ranges.bitcnt, h.ranges.len, h.ranges.fbIdx, h.ranges.ibuf, h.ranges.rising, h.ranges.written,
        fun hx => by simp [hfi] at hx, h.ranges.backoff⟩,
      ⟨fun hx => by simp at hx, fun hx => by simp at hx, fun hx => by simp at hx,
        fun hx => by simp at hx⟩,
      ⟨h.builder.legal, h.builder.len, h.builder.idx, h.builder.fresh, h.builder.soFar,
        fun hx => by simp [hfi, afterCrcRun] at hx, h.builder.result⟩,
      ⟨h.reader.failed, h.reader.succeeded, h.reader.running, h.reader.waiting,
        h.reader.capacity⟩⟩

/-! ## The Frame Builder -/

/-- A row of the Frame Builder's table that changes only the builder's own registers keeps the rest of
the invariant. -/
theorem inv_builderRow {s : State} (h : MachineInv s) (hb : s.io.busy = true) (hl : s.lr.phase = .idle)
    (hf : s.fb.phase ≠ .idle) (hc : s.ce.phase = .idle) (fb : FbRegs) (hn : fb.phase ≠ .idle)
    (hlen : fb.phase ≠ .lenCalc → fb.len = lengthField (operandLen s))
    (hidx : fb.phase ≠ .lenCalc → fb.idx ≤ operandLen s)
    (hfr : beforeCopy fb.phase = true → fb.idx = 0) (hi : fb.idx ≤ maxMnemonic) (hll : fb.len ≤ 999)
    (hsf : fb.fbuf = (buildFrame (operand s)).take (emitted { s with fb := fb }))
    (hcrc : afterCrcRun fb.phase = true → s.ce.crc = crc16 (frameHeader (operand s))) :
    MachineInv { s with fb := fb } :=
  ⟨⟨fun hx => by simp [hb] at hx, fun _ => .inr (.inl hn), fun hx => absurd hl hx,
      fun hx => absurd hc hx, h.units.status, fun _ => h.units.crcResult (.inr hf),
      h.units.lineResult⟩,
    ⟨h.ranges.bitcnt, hll, hi, h.ranges.ibuf, h.ranges.rising, h.ranges.written,
      fun _ => h.ranges.operand (.inr hf),
      h.ranges.backoff⟩,
    ⟨fun hx => absurd hc hx, fun hx => by simp [hc] at hx, fun hx => by simp [hc] at hx,
      fun hx => by simp [hc] at hx⟩,
    ⟨fun _ => h.builder.legal hf, fun _ hx => hlen hx, fun _ hx => hidx hx, hfr, fun _ => hsf, hcrc,
      fun hx => absurd hx hn⟩,
    ⟨h.reader.failed, h.reader.succeeded, h.reader.running, h.reader.waiting, h.reader.capacity⟩⟩

/-- A row that appends one byte of the Frame. -/
theorem inv_fbAppend {s : State} (h : MachineInv s) (hb : s.io.busy = true) (hl : s.lr.phase = .idle)
    (hf : s.fb.phase ≠ .idle) (hc : s.ce.phase = .idle) (v : Byte) (p : FbPhase)
    (hn : p ≠ .idle ∧ p ≠ .lenCalc) (hnl : s.fb.phase ≠ .lenCalc)
    (hfr : beforeCopy p = true → beforeCopy s.fb.phase = true)
    (hv : (buildFrame (operand s))[emitted s]? = some v)
    (he : emitted { s with fb := fbAppend v p s.fb } = emitted s + 1)
    (hcrc : afterCrcRun p = true → s.ce.crc = crc16 (frameHeader (operand s))) :
    MachineInv { s with fb := fbAppend v p s.fb } := by
  refine inv_builderRow h hb hl hf hc _ hn.1 (fun _ => h.builder.len hf hnl)
    (fun _ => h.builder.idx hf hnl) (fun hx => h.builder.fresh (hfr hx)) h.ranges.fbIdx
    h.ranges.len ?_ hcrc
  rw [he, ← append_take hv, ← h.builder.soFar hf]
  rfl

/-- A row of the Frame Builder's table keeps the invariant (R140). -/
theorem inv_fbMicro {s t : State} (h : MachineInv s) (hb : s.io.busy = true) (hl : s.lr.phase = .idle)
    (hf : s.fb.phase ≠ .idle) (hm : fbMicro s = .next t) : MachineInv t := by
  have ho := h.ranges.operand (.inr hf)
  have hol := operand_length ho
  have hleg := h.builder.legal hf
  have hmk := buildFrame_marker (operand s)
  have hdg := buildFrame_digits (operand s)
  have htr := buildFrame_trailer (operand s)
  rw [hol] at hdg htr
  have hlen (hx : s.fb.phase ≠ .lenCalc) := h.builder.len hf hx
  have hcrc := h.builder.crc
  have hce (hne : s.fb.phase ≠ .crcRun) : s.ce.phase = .idle := by
    by_contra hx
    rcases h.units.engineUse hx with h1 | h1
    · exact hf h1
    · exact hne h1
  unfold fbMicro at hm
  cases hp : s.fb.phase <;> simp only [hp] at hm
  case idle => exact absurd hp hf
  case crcRun => exact inv_crcMicro h hb hl (.inr hp) hm
  case lenCalc =>
    injection hm with hm
    subst hm
    have hsf := h.builder.soFar hf
    rw [emitted, hp] at hsf
    exact inv_builderRow h hb hl hf (hce (by simp [hp])) _ (by simp) (fun _ => rfl)
      (fun _ => Nat.zero_le _) (fun _ => rfl) (Nat.zero_le _)
      (by simp [lengthField, trailer, maxMnemonic] at hleg ⊢; omega) hsf
      (fun hx => by simp [afterCrcRun] at hx)
  case mnem =>
    split at hm
    · rename_i hi
      split at hm
      · rename_i b hrd
        injection hm with hm
        subst hm
        have hv : (buildFrame (operand s))[headerLen s.fb.idx]? = some b := by
          rw [buildFrame_mnemonic (operand s) s.fb.idx (by omega)]
          simpa [operand, Buffer.span, Buffer.read, List.getElem?_take, hi] using hrd
        have hsf := h.builder.soFar hf
        rw [emitted, hp] at hsf
        refine inv_builderRow h hb hl hf (hce (by simp [hp])) _ (by simp [hp])
          (fun _ => hlen (by simp [hp])) (fun _ => hi)
          (fun hx => by simp [hp, beforeCopy] at hx) (by simp; omega) h.ranges.len ?_
          (fun hx => by simp [hp, afterCrcRun] at hx)
        have he : emitted { s with fb := fbCopy b s.fb } = headerLen s.fb.idx + 1 := by
          simp [emitted, hp, headerLen]
          omega
        rw [he, ← append_take hv, ← hsf]
        rfl
      · cases hm
    · rename_i hi
      injection hm with hm
      subst hm
      have hidx := h.builder.idx hf (by simp [hp])
      have hsf := h.builder.soFar hf
      rw [emitted, hp, show s.fb.idx = operandLen s by omega] at hsf
      exact inv_builderRow h hb hl hf (hce (by simp [hp])) _ (by simp)
        (fun _ => hlen (by simp [hp])) (fun _ => hidx) (fun hx => by simp [beforeCopy] at hx) h.ranges.fbIdx
        h.ranges.len hsf
        (fun hx => by simp [afterCrcRun] at hx)
  case done =>
    injection hm with hm
    subst hm
    have hsf := h.builder.soFar hf
    rw [emitted, hp, List.take_of_length_le (by simp [headerLen, hol]; omega)] at hsf
    have hci := hce (by simp [hp])
    exact ⟨⟨fun _ => ⟨hci, rfl, hl⟩, fun hx => by simp at hx, fun hx => absurd hl hx,
        fun hx => absurd hci hx, fun hx => by simp at hx, fun hx => by simp [hci] at hx,
        h.units.lineResult⟩,
      ⟨h.ranges.bitcnt, h.ranges.len, h.ranges.fbIdx, h.ranges.ibuf, h.ranges.rising, h.ranges.written,
        fun hx => by simp [hci] at hx, h.ranges.backoff⟩,
      ⟨fun hx => absurd hci hx, fun hx => by simp [hci] at hx, fun hx => by simp [hci] at hx,
        fun hx => by simp [hci] at hx⟩,
      ⟨fun hx => by simp at hx, fun hx => by simp at hx, fun hx => by simp at hx,
        fun hx => by simp [beforeCopy] at hx, fun hx => by simp at hx,
        fun hx => by simp [afterCrcRun] at hx, fun _ => .inr ⟨operand s, by omega, hsf⟩⟩,
      ⟨h.reader.failed, h.reader.succeeded, h.reader.running, h.reader.waiting,
        h.reader.capacity⟩⟩
  case mark0 =>
    cases hm
    exact inv_fbAppend h hb hl hf (hce (by simp [hp])) _ _ (by simp) (by simp [hp])
      (by simp [hp, beforeCopy]) (by rw [emitted, hp]; exact hmk.1) (by simp [emitted, hp]) (by simp [afterCrcRun])
  case mark1 =>
    cases hm
    exact inv_fbAppend h hb hl hf (hce (by simp [hp])) _ _ (by simp) (by simp [hp])
      (by simp [hp, beforeCopy]) (by rw [emitted, hp]; exact hmk.2) (by simp [emitted, hp]) (by simp [afterCrcRun])
  case dig2 =>
    cases hm
    exact inv_fbAppend h hb hl hf (hce (by simp [hp])) _ _ (by simp) (by simp [hp])
      (by simp [hp, beforeCopy]) (by rw [emitted, hp, hlen (by simp [hp])]; exact hdg.1) (by simp [emitted, hp])
      (by simp [afterCrcRun])
  case dig1 =>
    cases hm
    exact inv_fbAppend h hb hl hf (hce (by simp [hp])) _ _ (by simp) (by simp [hp])
      (by simp [hp, beforeCopy]) (by rw [emitted, hp, hlen (by simp [hp])]; exact hdg.2.1) (by simp [emitted, hp])
      (by simp [afterCrcRun])
  case dig0 =>
    cases hm
    exact inv_fbAppend h hb hl hf (hce (by simp [hp])) _ _ (by simp) (by simp [hp])
      (by simp [hp, beforeCopy]) (by rw [emitted, hp, hlen (by simp [hp])]; exact hdg.2.2)
      (by simp [emitted, hp, headerLen, h.builder.fresh (by simp [hp, beforeCopy])])
      (by simp [afterCrcRun])
  case crcHi =>
    cases hm
    have hc := hcrc (by simp [hp, afterCrcRun])
    exact inv_fbAppend h hb hl hf (hce (by simp [hp])) _ _ (by simp) (by simp [hp])
      (by simp [hp, beforeCopy]) (by rw [emitted, hp, hc]; exact htr.1) (by simp [emitted, hp, operandLen]) (fun _ => hc)
  case crcLo =>
    cases hm
    have hc := hcrc (by simp [hp, afterCrcRun])
    exact inv_fbAppend h hb hl hf (hce (by simp [hp])) _ _ (by simp) (by simp [hp])
      (by simp [hp, beforeCopy]) (by rw [emitted, hp, hc]; exact htr.2.1) (by simp [emitted, hp, operandLen]) (fun _ => hc)
  case term =>
    cases hm
    have hc := hcrc (by simp [hp, afterCrcRun])
    exact inv_fbAppend h hb hl hf (hce (by simp [hp])) _ _ (by simp) (by simp [hp])
      (by simp [hp, beforeCopy]) (by rw [emitted, hp]; exact htr.2.2) (by simp [emitted, hp, operandLen]) (fun _ => hc)

/-! ## The Line Reader -/

/-- A row of the Line Reader's table that changes only the reader's own registers and what lies outside
the block keeps the rest of the invariant. -/
theorem inv_readerRow {s : State} (h : MachineInv s) (hb : s.io.busy = true) (hl : s.lr.phase ≠ .idle)
    (lr : LrRegs) (w : World) (hn : lr.phase ≠ .idle)
    (hr : ReaderInv { s with lr := lr, world := w }) : MachineInv { s with lr := lr, world := w } :=
  ⟨⟨fun hx => by simp [hb] at hx, fun _ => .inr (.inr hn), fun _ => h.units.readerAlone hl,
      h.units.engineUse, h.units.status, h.units.crcResult, fun _ => h.units.lineResult hl⟩,
    ⟨h.ranges.bitcnt, h.ranges.len, h.ranges.fbIdx, h.ranges.ibuf, h.ranges.rising,
      h.ranges.written, h.ranges.operand, h.ranges.backoff⟩,
    ⟨h.engine.idx, h.engine.load, h.engine.shift, h.engine.done⟩,
    ⟨h.builder.legal, h.builder.len, h.builder.idx, h.builder.fresh, h.builder.soFar,
      h.builder.crc, h.builder.result⟩, hr⟩

/-- A row of the Line Reader's table that keeps the accumulator and `SUCCESS`, and enters a phase
other than `RECV` and `IDLE`, keeps the invariant. -/
theorem inv_readerStays {s : State} (h : MachineInv s) (hb : s.io.busy = true) (hl : s.lr.phase ≠ .idle)
    (hd : s.lr.phase ≠ .done) (lr : LrRegs) (w : World) (hn : lr.phase ≠ .idle)
    (hne : lr.phase ≠ .recv) (hbuf : lr.lbuf = s.lr.lbuf) (hs : lr.success = false) :
    MachineInv { s with lr := lr, world := w } := by
  have hf := h.reader.failed (h.reader.running hl hd)
  have hcap := h.reader.capacity
  refine inv_readerRow h hb hl lr w hn ⟨fun _ => ?_, fun hx => ?_, fun _ _ => hs,
    fun hx => absurd hx hne, ?_⟩
  · simpa [hbuf] using hf
  · simp [hs] at hx
  · simpa [lineLen, hbuf] using hcap

/-- A row of the Line Reader's table keeps the invariant (R157). -/
theorem inv_lrMicro {s t : State} (h : MachineInv s) (hb : s.io.busy = true) (hl : s.lr.phase ≠ .idle)
    (hm : lrMicro s = .next t) : MachineInv t := by
  rcases lrMicro_cases hm with ⟨hp, rfl⟩ | ⟨hp, rfl⟩ | ⟨hp, ha, hfull, rfl⟩ | ⟨hp, ha, rfl⟩ |
    ⟨hp, b, rest, hrx, rfl⟩ | ⟨hp, rfl⟩ | ⟨hp, rfl⟩
  · have hs := h.reader.running hl (by simp [hp])
    exact inv_readerStays h hb hl (by simp [hp]) _ _ (by simp) (by simp) rfl hs
  · have hs := h.reader.running hl (by simp [hp])
    unfold lrCheck
    split
    · exact inv_readerStays h hb hl (by simp [hp]) _ _ (by simp) (by simp) rfl rfl
    · exact inv_readerStays h hb hl (by simp [hp]) _ _ (by simp) (by simp) rfl hs
  · have hs := h.reader.running hl (by simp [hp])
    refine inv_readerRow h hb hl _ _ (by simp) ⟨h.reader.failed, h.reader.succeeded,
      fun _ _ => hs, fun _ => ⟨?_, hfull⟩, h.reader.capacity⟩
    simpa [tAvail] using ha
  · have hs := h.reader.running hl (by simp [hp])
    exact inv_readerStays h hb hl (by simp [hp]) _ _ (by simp) (by simp) rfl hs
  · have hs := h.reader.running hl (by simp [hp])
    have hnt := h.reader.failed hs
    have hroom := (lineFull_false_iff s).mp (h.reader.waiting hp).2
    unfold lrAccept
    split
    · rename_i hb'
      have hbt : b = terminator := by simpa [isTerminator] using hb'
      refine inv_readerRow h hb hl _ _ (by simp) ⟨fun hx => by simp at hx,
        fun _ => ⟨s.lr.lbuf, by simp [Buffer.append, hbt], hnt⟩, fun _ hx => by simp at hx,
        fun hx => by simp at hx, fun c hc => ?_⟩
      simpa [lineLen] using hroom c hc
    · rename_i hb'
      have hbt : b ≠ terminator := by simpa [isTerminator] using hb'
      refine inv_readerRow h hb hl _ _ (by simp) ⟨fun _ => ?_, fun hx => by simp [hs] at hx,
        fun _ _ => hs, fun hx => by simp at hx, fun c hc => ?_⟩
      · simp [Buffer.append, hnt, Ne.symm hbt]
      · simpa [lineLen] using hroom c hc
  · have hs := h.reader.running hl (by simp [hp])
    unfold lrBackoff
    split
    · exact inv_readerStays h hb hl (by simp [hp]) _ _ (by simp) (by simp) rfl hs
    · exact h
  · obtain ⟨hf, hc⟩ := h.units.readerAlone hl
    exact ⟨⟨fun _ => ⟨hc, hf, rfl⟩, fun hx => by simp at hx, fun hx => by simp at hx,
        fun hx => absurd hc hx, fun hx => by simp at hx, fun hx => by simp [hc, hf] at hx,
        fun hx => by simp at hx⟩,
      ⟨h.ranges.bitcnt, h.ranges.len, h.ranges.fbIdx, h.ranges.ibuf, h.ranges.rising, h.ranges.written,
        fun hx => by simp [hc, hf] at hx, h.ranges.backoff⟩,
      ⟨fun hx => absurd hc hx, fun hx => by simp [hc] at hx, fun hx => by simp [hc] at hx,
        fun hx => by simp [hc] at hx⟩,
      ⟨fun hx => absurd hf hx, fun hx => absurd hf hx, fun hx => absurd hf hx,
        fun hx => by simp [hf, beforeCopy] at hx, fun hx => absurd hf hx,
        fun hx => by simp [hf, afterCrcRun] at hx, h.builder.result⟩,
      ⟨h.reader.failed, h.reader.succeeded, fun hx => by simp at hx, fun hx => by simp at hx,
        h.reader.capacity⟩⟩

/-! ## The active unit -/

/-- A row of the active unit keeps the invariant. -/
theorem inv_unitMicro {s t : State} (h : MachineInv s) (hb : s.io.busy = true)
    (hm : unitMicro s = .next t) : MachineInv t := by
  rcases unitMicro_cases hm with ⟨hl, h1⟩ | ⟨hl, hf, h1⟩ | ⟨hl, hf, h1⟩
  · exact inv_lrMicro h hb hl h1
  · exact inv_fbMicro h hb hl hf h1
  · exact inv_crcMicro h hb hl (.inl hf) h1

end Sys2Proof.Machine
end

