-- ==== Sys2Proof/Laws/PerInstr.lean ====
section
/-! SUPPORT. Statements about every command as syntax, one lemma a constructor. -/

namespace Sys2Proof.Laws

/-- The fields of an encoded command are its `OP` and its `ARG` (R80). -/
def EncodeFields.Statement (i : Instr) : Prop :=
  opField (encode i) = i.op ∧ argField (encode i) = i.arg

theorem EncodeFields.idle (a : Arg) : EncodeFields.Statement (.idle a) :=
  ⟨opField_append _ _, argField_append _ _⟩

theorem EncodeFields.crc16 (a : Arg) : EncodeFields.Statement (.crc16 a) :=
  ⟨opField_append _ _, argField_append _ _⟩

theorem EncodeFields.build (a : Arg) : EncodeFields.Statement (.build a) :=
  ⟨opField_append _ _, argField_append _ _⟩

theorem EncodeFields.readline (a : Arg) : EncodeFields.Statement (.readline a) :=
  ⟨opField_append _ _, argField_append _ _⟩

end Sys2Proof.Laws
end

