-- ==== Sys2Proof/Tests/Slice0.lean ====
section
/-! SUPPORT. Tests with results from spec/95_test_vectors.md and from hand calculation by the rules, and
for every statement with hypotheses a state and operands that meet them together. -/

namespace Sys2Proof.Tests

open Sys2Proof.Machine

/-! ## Helpers -/

/-- The parameters of the vectors of 95_test_vectors.md: `BACKOFF_MS` = 2, nothing bounded. -/
def vectorParams : Params := { backoffMs := 2, lineCap := none, ibufCap := none, timeoutCmp := .gt }

/-- A block at rest with `ibuf` freshly written by the host and `rxq` waiting. -/
def atRest (ibuf rxq : List Byte) : State :=
  { State.reset with
    io := { State.reset.io with ibuf := Buffer.cells ibuf, ibufWritten := List.range ibuf.length },
    world := { State.reset.world with rxq := rxq },
    params := vectorParams }

/-- The state with the script `env` of environment moves. -/
def scripted (env : List EnvMove) (s : State) : State := { s with world := { s.world with env := env } }

/-- The state with the clock at `c`. -/
def clockAt (c : Nat) (s : State) : State := { s with world := { s.world with clock := c } }

/-- The state with a command running whose argument is `n`. -/
def running (n : Arg) (s : State) : State := { s with io := { s.io with busy := true, arg := n } }

/-- The state with the CRC Engine's registers given. -/
def withEngine (p : CrcPhase) (crc : CrcWord) (idx bitcnt : Nat) (s : State) : State :=
  { s with ce := { phase := p, crc := crc, idx := idx, bitcnt := bitcnt } }

/-- The state with the Frame Builder's registers given. -/
def withBuilder (p : FbPhase) (len idx : Nat) (fbuf : Buffer) (s : State) : State :=
  { s with fb := { phase := p, len := len, idx := idx, fbuf := fbuf } }

/-- The state with the Line Reader in phase `p`, `TIMEOUT` = 50 and the given line. -/
def withReader (p : LrPhase) (line : Buffer) (s : State) : State :=
  { s with lr := { s.lr with phase := p, lbuf := line, timeout := 50#32 },
           io := { s.io with successWritten := true } }

/-- The state with the host's moves given. -/
def queued (q : List HostMove) (s : State) : State := { s with host := { queue := q, got := [] } }

/-- The state with the parameters changed. -/
def withParams (p : Params) (s : State) : State := { s with params := p }

/-- The outcome is a next state with the property. -/
def nextWith (p : State → Bool) : Host.Outcome State Fault Refusal → Bool
  | .next t => p t
  | .fault _ => false
  | .refused _ => false

/-- The outcome is the refusal. -/
def refusedAs (r : Refusal) : Host.Outcome State Fault Refusal → Bool
  | .next _ => false
  | .fault _ => false
  | .refused q => q == r

/-- A move in which nothing arrives and the clock advances by `n`. -/
def quiet (n : Nat) : EnvMove := { arrivals := [], ticks := n }

/-- `"123456789"`. -/
def nineDigits : List Byte := [0x31, 0x32, 0x33, 0x34, 0x35, 0x36, 0x37, 0x38, 0x39]

/-- `"^P006MOD"`. -/
def modHeader : List Byte := [0x5E, 0x50, 0x30, 0x30, 0x36, 0x4D, 0x4F, 0x44]

/-! ## WellFormed: the one check, R82, R83, R132 -/

theorem test_wf_build_997_refused : Instr.wf (.build 997#32) = false := by decide

theorem test_wf_build_996_accepted : Instr.wf (.build 996#32) = true := by decide

theorem test_wf_others_accept_every_arg :
    Instr.wf (.idle 0xFFFFFFFF#32) = true ∧ Instr.wf (.crc16 0xFFFFFFFF#32) = true ∧
    Instr.wf (.readline 0xFFFFFFFF#32) = true := by decide

/-! ## Decode: words written out from R80 and R81 -/

theorem test_decode_idle :
    decodeWord 0b00_00000000000000000000000000000111#34 = .idle 7#32 := by decide

theorem test_decode_crc16 :
    decodeWord 0b01_00000000000000000000000000001001#34 = .crc16 9#32 := by decide

theorem test_decode_build :
    decodeWord 0b10_00000000000000000000001111100100#34 = .build 996#32 := by decide

theorem test_decode_readline :
    decodeWord 0b11_10000000000000000000000000110010#34 = .readline 0x80000032#32 := by decide

/-- The five bytes of `CMD` = 0x3_00000032, least significant first (log 2). -/
theorem test_decode_bytes :
    decodeBytes [0x32#8, 0x00#8, 0x00#8, 0x00#8, 0x03#8] = .ok (.readline 50#32) := by rfl

theorem test_decode_bytes_refused :
    decodeBytes [0x32#8, 0x00#8, 0x00#8, 0x00#8, 0x07#8] = .error .bitsAboveWord ∧
    decodeBytes [0x32#8, 0x00#8, 0x00#8, 0x00#8] = .error (.wrongLength 4) := ⟨rfl, rfl⟩

theorem test_decode_table_word : decodeTableWord 34 0x200000003 = some (.build 3#32) := by rfl

/-! ## The commands -/

/-- R94: an IDLE written while a CRC16 runs changes nothing but that it is taken up. -/
theorem test_idle_while_busy :
    nextWith (· == running 1#32 (atRest [0x5E] []))
      (step ((scripted [quiet 0] (running 1#32 (atRest [0x5E] []))).withFetchWord 34 0)) = true := by
  decide

/-- R26, R50: bytes of `IBUF` written out of order and one of them again, by hand. -/
theorem test_ibuf_out_of_order :
    (let io := writeIbuf 1 [0x50] (writeIbuf 0 [0x4D] (writeIbuf 1 [0x4F, 0x44] State.reset.io))
     io.ibuf = [(0, 0x4D), (1, 0x50), (2, 0x44)] ∧ io.ibufWritten = [0, 1, 2] ∧
      Memory.leading io.ibuf = [0x4D, 0x50, 0x44]) ∧
    (let io := writeIbuf 2 [0x44] (writeIbuf 0 [0x4D] State.reset.io)
     Memory.leading io.ibuf = [0x4D] ∧ io.ibufWritten = [0, 2]) := by decide

/-- R83, R203: an operand with a byte that was never written is refused, though two bytes were written. -/
theorem test_build_gap_refused :
    refusedAs .operandMissing (exec (.build 2#32)
      { State.reset with io := writeIbuf 2 [0x44] (writeIbuf 0 [0x4D] State.reset.io) }) = true := by
  decide

/-- R91: the words of program lines, by hand from its table. -/
theorem test_line_words :
    Line.moves (.build mnemonicMod) =
      [blocking (.writeIbuf 0 [0x4D, 0x4F, 0x44]), blocking (.writeCmd 0x200000003#34)] ∧
    Line.moves (.readline 50#32) = [blocking (.writeCmd 0x300000032#34)] := by decide

/-- R218: a host that counts steps inside a CRC16 of no byte; the count goes down and LOAD ends. -/
theorem test_counted_move_waits :
    nextWith (fun t => t.ce.phase == .done && t.host.queue == [{ wait := .after 1, act := .reset }])
      (step (queued [{ wait := .after 2, act := .reset }]
        (scripted [quiet 0] (acceptCrc16 0#32 (atRest [] []))))) = true := by decide

/-- R112: vector V7, the load of 5E into a cleared register. -/
theorem test_crc16_load :
    nextWith (fun t => t.ce.crc == 0x5E00#16 && t.ce.phase == .shift && t.ce.bitcnt == 0)
      (step (withEngine .load 0#16 0 8 (scripted [quiet 0] (running 1#32 (atRest [0x5E] []))))) = true
    := by decide

/-- Vectors V3, V6, V8, V9. -/
theorem test_crc16_vectors :
    crc16 nineDigits = 0x31C3#16 ∧ crc16 [0xFF] = 0x1EF0#16 ∧ crc16 modHeader = 0xDDBE#16 ∧
    crc16 [0x41, 0x42, 0x0D] = 0x909E#16 := by decide +kernel

/-- Vectors V10, V12, V13, V17b. -/
theorem test_build_vectors :
    buildFrame [0x4D, 0x4F, 0x44] =
      [0x5E, 0x50, 0x30, 0x30, 0x36, 0x4D, 0x4F, 0x44, 0xDD, 0xBE, 0x0D] ∧
    buildFrame [] = [0x5E, 0x50, 0x30, 0x30, 0x33, 0x69, 0xA1, 0x0D] ∧
    buildFrame [0x44, 0x53] = [0x5E, 0x50, 0x30, 0x30, 0x35, 0x44, 0x53, 0x0D, 0x47, 0x0D] ∧
    buildFrame (List.replicate 7 0x41) =
      [0x5E, 0x50, 0x30, 0x31, 0x30, 0x41, 0x41, 0x41, 0x41, 0x41, 0x41, 0x41, 0xBA, 0xA1, 0x0D] := by
  decide +kernel

/-- Step 13 of the trace of vector V10: the high byte of 0xDDBE goes first. -/
theorem test_build_crc_high :
    nextWith (fun t => t.fb.fbuf == modHeader ++ [0xDD] && t.fb.phase == .crcLo)
      (step (withEngine .idle 0xDDBE#16 8 8 (withBuilder .crcHi 6 3 modHeader
        (scripted [quiet 0] (running 3#32 (atRest [0x4D, 0x4F, 0x44] [])))))) = true := by
  decide

/-- R61: a byte that arrives while CRC16 runs is in the receive stream at once. -/
theorem test_bytes_arrive_during_crc16 :
    nextWith (fun t => t.world.rxq == [0x41, 0x42] && t.world.clock == 3)
      (step (withEngine .shift 0#16 0 0 (scripted [{ arrivals := [0x42], ticks := 3 }]
        (running 1#32 (atRest [0x5E] [0x41]))))) = true := by decide

/-- R25, R26, R31: during a READLINE `STATUS` reads 001, for it has written `SUCCESS` = 0. -/
theorem test_status_during_readline :
    nextWith (fun t => t.host.got == [1])
      (hostRead .status (acceptReadline 50#32 (atRest [] []))) = true := by decide

/-- R30, U6: `SUCCESS` cannot be read before the first READLINE. -/
theorem test_success_unwritten :
    refusedAs .unwrittenRead (hostRead .success (atRest [] [])) = true := by decide

/-- Vector V28: a CHECK at clock 0x23 after a start at 0xFFFFFFF0 sees 51 > 50 ms; at 0x20 it saw 48. -/
theorem test_readline_check_across_wrap :
    nextWith (fun t => t.lr.phase == .done && !t.lr.success)
      (step { scripted [quiet 0] (clockAt 0x100000023 (running 50#32 (atRest [] []))) with
        lr := { phase := .check, lbuf := [], timeout := 50#32, tStart := 0xFFFFFFF0#32,
                tBk := 0#32, success := false } }) = true ∧
    nextWith (fun t => t.lr.phase == .poll)
      (step { scripted [quiet 0] (clockAt 0x100000020 (running 50#32 (atRest [] []))) with
        lr := { phase := .check, lbuf := [], timeout := 50#32, tStart := 0xFFFFFFF0#32,
                tBk := 0#32, success := false } }) = true := by decide

/-- Vector V32: with `LINE_CAP` = 2 the third byte is refused, not read. -/
theorem test_readline_line_cap :
    refusedAs .lineCapExceeded
      (step (withParams { vectorParams with lineCap := some 2 } (withReader .poll [0x41, 0x42]
        (scripted [quiet 0] (running 50#32 (atRest [] [0x43, 0x0D])))))) = true := by decide

/-! ## States that meet the invariant -/

/-- A block at rest meets the invariant. -/
theorem atRest_inv (ibuf rxq : List Byte) : MachineInv (atRest ibuf rxq) := by
  constructor <;> constructor <;>
    simp +contextual [atRest, State.reset, vectorParams, beforeCopy, afterCrcRun, lineLen, cells_wf,
      List.pairwise_lt_range, read_cells, Buffer.read]

theorem atRest_written (ibuf rxq : List Byte) :
    (atRest ibuf rxq).io.ibufWritten.length = ibuf.length := List.length_range

theorem atRest_leading (ibuf rxq : List Byte) :
    Memory.leading (atRest ibuf rxq).io.ibuf = ibuf := leading_cells ibuf

/-- It holds every operand no longer than what was written. -/
theorem atRest_held (ibuf rxq : List Byte) (n : Nat) (h : n ≤ ibuf.length) :
    operandMissing n (atRest ibuf rxq) = false :=
  operandMissing_false.mpr ⟨by rwa [atRest_written], by rwa [atRest_leading], rfl⟩

theorem scripted_inv {s : State} (h : MachineInv s) (env : List EnvMove) :
    MachineInv (scripted env s) :=
  inv_withWorld h _ fun hp => (h.reader.waiting hp).1

/-- A Line Reader in any phase of its loop, over an empty or terminator-free line, meets the
invariant. -/
theorem reader_inv (p : LrPhase) (env : List EnvMove) (hp : p ≠ .idle ∧ p ≠ .done) :
    MachineInv (withReader p [0x41] (scripted env (running 50#32 (atRest [] [0x0D])))) := by
  constructor <;> constructor <;>
    simp [withReader, scripted, running, atRest, State.reset, vectorParams, beforeCopy, afterCrcRun,
      lineLen, lineFull, terminator, Memory.wf, Buffer.cells, Buffer.cellsFrom, hp.1]

/-- The comparison at the deadline has no part in the invariant. -/
theorem withCmp_inv {s : State} (h : MachineInv s) (c : TimeoutCmp) :
    MachineInv (withParams { s.params with timeoutCmp := c } s) where
  units := { h.units with }
  ranges := { h.ranges with }
  engine := { h.engine with }
  builder := { h.builder with }
  reader := { h.reader with }

/-! ## Witnesses: one for the hypotheses of each statement -/

theorem witness_EveryWordFallsUnderItsOneOpcodeRow :
    opcodeTable.map (fun r => r.covers 0x2000003E4#34) = [false, false, true, false] := by
  decide

theorem witness_StepTakesUpThePendingCommand :
    ((atRest [] []).withFetchWord 34 0x300000032).io.cmd = some 0x300000032#34 := by decide

theorem witness_WaitingBlockOnlyLetsTheEnvironmentMove :
    (atRest [] []).io.cmd = none ∧ (atRest [] []).io.busy = false ∧
    (atRest [] []).host.queue = [] := by decide

theorem witness_BuildAbove996IsRefused :
    (atRest [] []).io.busy = false ∧ 996 < (997#32).toNat ∧ (996#32).toNat ≤ 996 := by decide

/-- The clauses, each at its boundary: busy with the operand held; one byte more than written, a byte that
was never written below one that was, and more than `IBUF_CAP`; exactly what was written and exactly
`IBUF_CAP`; and 997 bytes held. -/
theorem witness_CommandsAreRefusedExactlyWhereTheSpecSays :
    ((running 1#32 (atRest [0x41] [])).io.busy = true ∧
      (1#32).toNat ≤ (running 1#32 (atRest [0x41] [])).io.ibufWritten.length ∧
      (1#32).toNat ≤ (Memory.leading (running 1#32 (atRest [0x41] [])).io.ibuf).length ∧
      (running 1#32 (atRest [0x41] [])).params.ibufCap = none) ∧
    ((atRest [0x41] []).io.busy = false ∧
      (atRest [0x41] []).io.ibufWritten.length < (2#32).toNat) ∧
    ((writeIbuf 1 [0x41] State.reset.io).busy = false ∧
      (1#32).toNat ≤ (writeIbuf 1 [0x41] State.reset.io).ibufWritten.length ∧
      (Memory.leading (writeIbuf 1 [0x41] State.reset.io).ibuf).length < (1#32).toNat) ∧
    (let s := withParams { vectorParams with ibufCap := some 1 } (atRest [0x41, 0x42] [])
     s.io.busy = false ∧ ∃ c, s.params.ibufCap = some c ∧ c < (2#32).toNat) ∧
    (let s := withParams { vectorParams with ibufCap := some 2 } (atRest [0x41, 0x42] [])
     s.io.busy = false ∧ (2#32).toNat ≤ s.io.ibufWritten.length ∧
      (2#32).toNat ≤ (Memory.leading s.io.ibuf).length ∧
      ∀ c, s.params.ibufCap = some c → (2#32).toNat ≤ c) ∧
    (let s := atRest (List.replicate 997 0x41#8) []
     s.io.busy = false ∧ 996 < (997#32).toNat ∧ (997#32).toNat ≤ s.io.ibufWritten.length ∧
      (997#32).toNat ≤ (Memory.leading s.io.ibuf).length ∧ s.params.ibufCap = none) := by
  refine ⟨by decide, by decide +kernel, by decide +kernel, ⟨rfl, 1, rfl, by decide⟩,
    ⟨rfl, by decide, by decide +kernel, fun c hc => ?_⟩, rfl, by decide, ?_, ?_, rfl⟩
  · cases hc
    decide
  · rw [atRest_written, List.length_replicate]
    decide
  · rw [atRest_leading, List.length_replicate]
    decide

/-- The nine bytes of vector V3, and the empty span of vector V1. -/
theorem witness_Crc16RunsToTheChecksum :
    (MachineInv (atRest nineDigits []) ∧ (atRest nineDigits []).io.busy = false ∧
      undisturbed (atRest nineDigits []) = true ∧
      operandMissing (9#32).toNat (atRest nineDigits []) = false) ∧
    operandMissing (0#32).toNat (atRest [] []) = false :=
  ⟨⟨atRest_inv _ _, by decide, by decide, by decide⟩, by decide⟩

/-- Acceptance; a running CRC16 with the engine's registers at any values, of which each clause names
some; the same inside BUILD; and the clauses of LOAD at their boundary. -/
theorem witness_CrcEngineRows :
    ((atRest [0x5E] []).io.busy = false ∧
      operandMissing (1#32).toNat (atRest [0x5E] []) = false) ∧
    (∀ p crc i k, let s := withEngine p crc i k (running 1#32 (atRest [0x5E] []))
      undisturbed s = true ∧ s.io.busy = true ∧ s.lr.phase = .idle ∧ s.fb.phase = .idle ∧
        s.ce.phase = p ∧ s.ce.idx = i ∧ s.ce.bitcnt = k) ∧
    (∀ p crc i k, let s := withEngine p crc i k (withBuilder .crcRun 3 0 modHeader
        (running 3#32 (atRest [0x4D, 0x4F, 0x44] [])))
      undisturbed s = true ∧ s.io.busy = true ∧ s.lr.phase = .idle ∧ s.fb.phase = .crcRun ∧
        s.ce.phase = p ∧ engineLen s = 8) ∧
    (let s := withEngine .load 0#16 0 8 (running 1#32 (atRest [0x5E] []))
     s.ce.idx < engineLen s ∧ Buffer.read (engineBuffer s) s.ce.idx = some 0x5E) ∧
    (let s := withEngine .load 0#16 1 8 (running 1#32 (atRest [0x5E] []))
     s.ce.idx = engineLen s) :=
  ⟨by decide, fun _ _ _ _ => ⟨by rfl, rfl, rfl, rfl, rfl, rfl, rfl⟩,
    fun _ _ _ _ => ⟨by rfl, rfl, rfl, rfl, rfl, by rfl⟩, by decide, by decide⟩

theorem witness_CrcIsLinear :
    ([0x4D, 0x4F, 0x44] : List Byte).length = ([0x01, 0x02, 0x03] : List Byte).length := rfl

/-- Mnemonics of 3, 0 and 996 bytes (vectors V10, V12, V18). -/
theorem witness_BuildRunsToTheFrame :
    (MachineInv (atRest [0x4D, 0x4F, 0x44] []) ∧ (atRest [0x4D, 0x4F, 0x44] []).io.busy = false ∧
      undisturbed (atRest [0x4D, 0x4F, 0x44] []) = true ∧ (3#32).toNat ≤ 996 ∧
      operandMissing (3#32).toNat (atRest [0x4D, 0x4F, 0x44] []) = false) ∧
    operandMissing (0#32).toNat (atRest [] []) = false ∧
    operandMissing (996#32).toNat (atRest (List.replicate 996 0x41#8) []) = false := by
  refine ⟨⟨atRest_inv _ _, by decide, by decide, by decide, by decide⟩, by decide, ?_⟩
  exact atRest_held _ _ _ (le_of_eq List.length_replicate.symm)

theorem witness_BuildWritesEveryFieldOfTheFrame :
    MachineInv (atRest [0x44, 0x53] []) ∧ (atRest [0x44, 0x53] []).io.busy = false ∧
    undisturbed (atRest [0x44, 0x53] []) = true ∧ (2#32).toNat ≤ 996 ∧
    operandMissing (2#32).toNat (atRest [0x44, 0x53] []) = false :=
  ⟨atRest_inv _ _, by decide, by decide, by decide, by decide⟩

/-- Acceptance; and one state for all phases, of which each clause names one, with the copy clause at
its last byte and past it. -/
theorem witness_FrameBuilderRows :
    ((atRest [0x41] []).io.busy = false ∧ (1#32).toNat ≤ 996 ∧
      operandMissing (1#32).toNat (atRest [0x41] []) = false) ∧
    (∀ p, undisturbed (withBuilder p 4 0 [] (running 1#32 (atRest [0x41] []))) = true ∧
      (withBuilder p 4 0 [] (running 1#32 (atRest [0x41] []))).io.busy = true ∧
      (withBuilder p 4 0 [] (running 1#32 (atRest [0x41] []))).lr.phase = .idle ∧
      (withBuilder p 4 0 [] (running 1#32 (atRest [0x41] []))).fb.phase = p) ∧
    ((withBuilder .mnem 4 0 [] (running 1#32 (atRest [0x41] []))).fb.idx <
        (withBuilder .mnem 4 0 [] (running 1#32 (atRest [0x41] []))).io.arg.toNat ∧
      Buffer.read (Memory.leading
        (withBuilder .mnem 4 0 [] (running 1#32 (atRest [0x41] []))).io.ibuf) 0 = some 0x41) ∧
    ((withBuilder .mnem 4 1 [] (running 1#32 (atRest [0x41] []))).fb.idx =
      (withBuilder .mnem 4 1 [] (running 1#32 (atRest [0x41] []))).io.arg.toNat) ∧
    (let s := withEngine .done 0#16 6 8 (withBuilder .crcRun 4 1 [] (running 1#32 (atRest [0x41] [])))
     undisturbed s = true ∧ s.io.busy = true ∧ s.lr.phase = .idle ∧ s.fb.phase = .crcRun ∧
      s.ce.phase = .done) := by
  refine ⟨by decide, fun p => ⟨by rfl, rfl, rfl, rfl⟩, by decide, by decide, by decide⟩

theorem witness_FrameReadsBack :
    (List.replicate 996 0x41#8).length ≤ 996 ∧
    buildFrame ([0x0D] : List Byte) = buildFrame [0x0D] :=
  ⟨le_of_eq List.length_replicate, rfl⟩

theorem witness_ReadlineStarts :
    (atRest [] [0x41]).io.busy = false ∧ undisturbed (atRest [] [0x41]) = true := by decide

/-- Elapsed 51, 50, 50 and 49 ms against `TIMEOUT` = 50 (vectors V22, V23, and V23 under `ge`). -/
theorem witness_LineReaderCheckRow :
    (let s := withReader .check [] (scripted [quiet 51] (running 50#32 (atRest [] [])))
     undisturbed s = true ∧ s.io.busy = true ∧ s.lr.phase = .check ∧ s.params.timeoutCmp = .gt ∧
      s.lr.timeout.toNat < (clockNow s.world.move - s.lr.tStart).toNat) ∧
    (let s := withReader .check [] (scripted [quiet 50] (running 50#32 (atRest [] [])))
     undisturbed s = true ∧ s.io.busy = true ∧ s.lr.phase = .check ∧ s.params.timeoutCmp = .gt ∧
      (clockNow s.world.move - s.lr.tStart).toNat ≤ s.lr.timeout.toNat) ∧
    (let s := withParams { vectorParams with timeoutCmp := .ge }
       (withReader .check [] (scripted [quiet 50] (running 50#32 (atRest [] []))))
     undisturbed s = true ∧ s.io.busy = true ∧ s.lr.phase = .check ∧ s.params.timeoutCmp = .ge ∧
      s.lr.timeout.toNat ≤ (clockNow s.world.move - s.lr.tStart).toNat) ∧
    (let s := withParams { vectorParams with timeoutCmp := .ge }
       (withReader .check [] (scripted [quiet 49] (running 50#32 (atRest [] []))))
     undisturbed s = true ∧ s.io.busy = true ∧ s.lr.phase = .check ∧ s.params.timeoutCmp = .ge ∧
      (clockNow s.world.move - s.lr.tStart).toNat < s.lr.timeout.toNat) := by decide

/-- A byte waits and the accumulator is unbounded, has room for one byte, is full; nothing waits. -/
theorem witness_LineReaderPollRow :
    (let s := withReader .poll [0x41] (scripted [quiet 0] (running 50#32 (atRest [] [0x42])))
     undisturbed s = true ∧ s.io.busy = true ∧ s.lr.phase = .poll ∧ s.world.move.rxq ≠ [] ∧
      s.params.lineCap = none) ∧
    (let s := withParams { vectorParams with lineCap := some 2 }
       (withReader .poll [0x41] (scripted [quiet 0] (running 50#32 (atRest [] [0x42]))))
     undisturbed s = true ∧ s.io.busy = true ∧ s.lr.phase = .poll ∧ s.world.move.rxq ≠ [] ∧
      s.params.lineCap = some 2 ∧ lineLen s < 2) ∧
    (let s := withParams { vectorParams with lineCap := some 1 }
       (withReader .poll [0x41] (scripted [quiet 0] (running 50#32 (atRest [] [0x42]))))
     undisturbed s = true ∧ s.io.busy = true ∧ s.lr.phase = .poll ∧ s.world.move.rxq ≠ [] ∧
      s.params.lineCap = some (lineLen s)) ∧
    (let s := withReader .poll [0x41] (scripted [quiet 0] (running 50#32 (atRest [] [])))
     undisturbed s = true ∧ s.io.busy = true ∧ s.lr.phase = .poll ∧ s.world.move.rxq = []) := by decide

/-- The terminator, and the line feed, which is not it. -/
theorem witness_LineReaderReceiveRow :
    (let s := withReader .recv [] (scripted [quiet 0] (running 50#32 (atRest [] [0x0D, 0x42])))
     undisturbed s = true ∧ s.io.busy = true ∧ s.lr.phase = .recv ∧
      s.world.move.rxq = [0x0D, 0x42]) ∧
    (let s := withReader .recv [] (scripted [quiet 0] (running 50#32 (atRest [] [0x0A])))
     undisturbed s = true ∧ s.io.busy = true ∧ s.lr.phase = .recv ∧
      s.world.move.rxq = [0x0A] ∧ (0x0A : Byte) ≠ 0x0D#8) := by decide

/-- One and two milliseconds into a backoff of `BACKOFF_MS` = 2. -/
theorem witness_LineReaderBackoffRow :
    (let s := withReader .backoff [] (scripted [quiet 1] (running 50#32 (atRest [] [0x0D])))
     undisturbed s = true ∧ s.io.busy = true ∧ s.lr.phase = .backoff ∧
      (clockNow s.world.move - s.lr.tBk).toNat < s.params.backoffMs) ∧
    (let s := withReader .backoff [] (scripted [quiet 2] (running 50#32 (atRest [] [0x0D])))
     undisturbed s = true ∧ s.io.busy = true ∧ s.lr.phase = .backoff ∧
      s.params.backoffMs ≤ (clockNow s.world.move - s.lr.tBk).toNat) := by decide

theorem witness_TimeoutIsANormalReturn :
    let s := withReader .check [0x41] (scripted [quiet 51] (running 50#32 (atRest [] [0x0D])))
    undisturbed s = true ∧ s.io.busy = true ∧ s.lr.phase = .check ∧ s.params.timeoutCmp = .gt ∧
    s.lr.timeout.toNat < (clockNow s.world.move - s.lr.tStart).toNat := by decide

/-- Vector V20 at the boundary of the timeout: `RXQ0` = 41 42 0D, 50 ms pass between the sample of START
and that of the last CHECK, and more pass before and after. -/
theorem witness_ReadlineReturnsTheWaitingLine :
    let ms := quiet 9 :: quiet 50 :: List.replicate 6 (quiet 0) ++ List.replicate 3 (quiet 70)
    let s := scripted ms (atRest [] [0x41, 0x42, 0x0D])
    s.io.busy = false ∧ undisturbed s = true ∧
    s.world.rxq = [0x41#8, 0x42#8] ++ 0x0D#8 :: [] ∧ 0x0D#8 ∉ [0x41#8, 0x42#8] ∧
    (∀ c, s.params.lineCap = some c → 2 < c) ∧
    s.world.env = ms ++ [] ∧
    ms.length = 3 * ([0x41#8, 0x42#8].length + 1) + 2 ∧
    totalTicks ((ms.drop 1).take (3 * [0x41#8, 0x42#8].length + 1)) = 50 ∧
    withinBudget s.params.timeoutCmp
      (totalTicks ((ms.drop 1).take (3 * [0x41#8, 0x42#8].length + 1))) (50#32).toNat = true := by
  refine ⟨rfl, by decide, rfl, by decide, fun c hc => ?_, by decide, rfl, by decide, by decide⟩
  simp [scripted, atRest, vectorParams] at hc

/-- `READLINE 1`, a clock that ticks once a move and nothing that ever arrives. -/
theorem witness_ReadlineTerminates :
    let s := scripted (List.replicate 6 (quiet 1)) (atRest [] [])
    MachineInv s ∧ s.io.busy = false ∧ undisturbed s = true ∧
    s.world.env = List.replicate 6 (quiet 1) ++ [] ∧
    (List.replicate 6 (quiet 1)).length = (1#32).toNat + s.params.backoffMs + 3 ∧
    (∀ m ∈ List.replicate 6 (quiet 1), 1 ≤ m.ticks) ∧
    totalTicks (List.replicate 6 (quiet 1)) < 2 ^ 32 :=
  ⟨scripted_inv (atRest_inv _ _) _, rfl, by decide, rfl, rfl, by decide, by decide⟩

/-- A byte that is no terminator waits, and another arrives. -/
theorem witness_LongestTimeoutNeverExpires :
    let s := scripted [quiet 7, { arrivals := [0x42], ticks := 1 }] (atRest [] [0x41])
    s.io.busy = false ∧ undisturbed s = true ∧ s.params.timeoutCmp = .gt ∧
    s.params.lineCap = none ∧
    s.world.env = [quiet 7, { arrivals := [0x42], ticks := 1 }] ++ [] ∧
    0x0D#8 ∉ s.world.rxq ++ allArrivals [quiet 7, { arrivals := [0x42], ticks := 1 }] := by
  decide

/-- A RECV of the terminator, and a CHECK at elapsed 51 against 50, and at 50 under `ge`. -/
theorem witness_ReadlineEndsOnlyByTerminatorOrTimeout :
    (∃ t, MachineInv (withReader .recv [0x41] (scripted [quiet 0] (running 50#32 (atRest [] [0x0D])))) ∧
      step (withReader .recv [0x41] (scripted [quiet 0] (running 50#32 (atRest [] [0x0D]))))
        = .next t ∧ t.lr.phase = .done ∧ t.lr.success = true) ∧
    (∃ t, MachineInv (withReader .check [0x41] (scripted [quiet 51]
        (running 50#32 (atRest [] [0x0D])))) ∧
      step (withReader .check [0x41] (scripted [quiet 51] (running 50#32 (atRest [] [0x0D]))))
        = .next t ∧ t.lr.phase = .done ∧ t.lr.success = false) ∧
    (let s := withParams { vectorParams with timeoutCmp := .ge }
       (withReader .check [0x41] (scripted [quiet 50] (running 50#32 (atRest [] [0x0D]))))
     ∃ t, MachineInv s ∧ step s = .next t ∧ t.lr.phase = .done ∧ t.lr.success = false) :=
  ⟨⟨_, reader_inv _ _ (by decide), rfl, rfl, rfl⟩, ⟨_, reader_inv _ _ (by decide), rfl, rfl, rfl⟩,
    ⟨_, withCmp_inv (reader_inv _ _ (by decide)) _, rfl, rfl, rfl⟩⟩

theorem witness_LineIsAContiguousRunOfTheStream :
    ∃ t, step (withReader .recv [0x41] (scripted [{ arrivals := [0x43], ticks := 0 }]
        (running 50#32 (atRest [] [0x42])))) = .next t ∧
      undisturbed (withReader .recv [0x41] (scripted [{ arrivals := [0x43], ticks := 0 }]
        (running 50#32 (atRest [] [0x42])))) = true ∧
      t.lr.lbuf = [0x41, 0x42] ∧ t.world.rxq = [0x43] := ⟨_, rfl, by decide, rfl, rfl⟩

/-- The longest elapsed time that is still right. -/
theorem witness_ElapsedSurvivesAClockWrap : (2 ^ 32 - 1 : Nat) < 2 ^ 32 := by decide

/-- A READLINE running beside a held Frame and checksum, and a pending CRC16 beside a held line. -/
theorem witness_ResultsStandUntilTheNextOfTheirKind :
    (let s := withReader .backoff [] (scripted [quiet 0] (running 50#32 (atRest [] [])))
     (∃ t, step s = .next t) ∧ s.fb.phase = .idle ∧ s.ce.phase = .idle ∧ hostDue s = none) ∧
    (let s := (scripted [quiet 0] (atRest [0x41] [])).withFetchWord 34 0x100000001
     (∃ t, step s = .next t ∧ t.ce.phase = .load) ∧ s.lr.phase = .idle ∧
      decodeWord 0x100000001#34 = .crc16 1#32) :=
  ⟨⟨⟨_, rfl⟩, rfl, rfl, rfl⟩, ⟨⟨_, rfl, rfl⟩, rfl, by decide⟩⟩

/-- `BUSY` rises at the acceptance of a READLINE, falls at the end of a BUILD, and falls at a reset in
the middle of one. -/
theorem witness_StatusFollowsTheOperation :
    (∃ t, step ((scripted [quiet 0] (atRest [] [])).withFetchWord 34 0x300000032) = .next t ∧
      t.io.busy = true) ∧
    (∃ t, step (withBuilder .done 3 0 [] (scripted [quiet 0] (running 0#32 (atRest [] [])))) = .next t ∧
      t.io.busy = false) ∧
    (∃ t, step (queued [{ wait := .after 0, act := .reset }]
        (withBuilder .mark0 3 0 [] (scripted [quiet 0] (running 0#32 (atRest [] []))))) = .next t ∧
      t.io.busy = false ∧ t.io.done = false) :=
  ⟨⟨_, rfl, rfl⟩, ⟨_, rfl, rfl⟩, ⟨_, rfl, rfl, rfl⟩⟩

theorem witness_OperandStandsWhileBusy :
    let s := withBuilder .mnem 4 0 [] (scripted [quiet 0] (running 1#32 (atRest [0x41] [])))
    (∃ t, step s = .next t) ∧ s.io.busy = true ∧ hostDue s = none := ⟨⟨_, rfl⟩, rfl, rfl⟩

/-- A byte taken by the Line Reader, and one drained by the host. -/
theorem witness_ReceiveStreamIsAQueue :
    (∃ t, step (withReader .recv [] (scripted [quiet 0] (running 50#32 (atRest [] [0x42])))) = .next t ∧
      t.world.rxq = []) ∧
    (∃ t, step (queued [blocking .takeByte] (scripted [quiet 0] (atRest [] [0x42]))) = .next t ∧
      t.world.rxq = [] ∧ t.host.got = [0x42]) := ⟨⟨_, rfl, rfl⟩, ⟨_, rfl, rfl, rfl⟩⟩

/-- The host's write of the Frame, and one of its own bytes while a READLINE runs. -/
theorem witness_OnlyTheHostTransmits :
    (∃ t, step (queued [blocking .transmitFrame] (withBuilder .idle 3 0 [0x5E, 0x0D]
        (scripted [quiet 0] (atRest [] [])))) = .next t ∧ t.world.txq = [0x5E, 0x0D]) ∧
    (∃ t, step (queued [{ wait := .after 0, act := .transmit [0x42] }] (withReader .backoff []
        (scripted [quiet 0] (running 50#32 (atRest [] []))))) = .next t ∧ t.world.txq = [0x42]) :=
  ⟨⟨_, rfl, rfl⟩, ⟨_, rfl, rfl⟩⟩

/-- A write of the Frame that is due while BUILD runs answers a next state. -/
theorem witness_OnlyTheHostTransmits_making :
    let s := queued [{ wait := .after 0, act := .transmitFrame }] (withBuilder .mark1 3 0 [0x5E]
      (scripted [quiet 0] (running 0#32 (atRest [] []))))
    s.fb.phase ≠ .idle ∧ hostDue s = some (.transmitFrame, []) ∧ ∃ t, step s = .next t :=
  ⟨by decide, rfl, _, rfl⟩

/-- The clock advances while the block waits and while CRC16 runs. -/
theorem witness_ClockNeverRunsBack :
    (∃ t, step (scripted [quiet 3] (atRest [] [])) = .next t ∧ t.world.clock = 3) ∧
    (∃ t, step (withEngine .shift 0#16 0 0 (scripted [quiet 3] (running 1#32 (atRest [0x5E] []))))
      = .next t ∧ t.world.clock = 3) := ⟨⟨_, rfl, rfl⟩, ⟨_, rfl, rfl⟩⟩

theorem witness_ParametersNeverChange :
    ∃ t, step (queued [blocking .reset] (scripted [quiet 0] (atRest [0x41] []))) = .next t ∧
      t.params.backoffMs = 2 := ⟨_, rfl, rfl⟩

/-- Two states with the operand 41 that differ in what lies behind it, in `CRC` and in what waits. -/
theorem witness_OperationsArePureFunctionsOfTheirOperand :
    let s := atRest [0x41, 0x42] []
    let s' := withEngine .idle 0xFFFF#16 5 3 (atRest [0x41, 0x43] [0x0D])
    MachineInv s ∧ MachineInv s' ∧ s.io.busy = false ∧ s'.io.busy = false ∧
    undisturbed s = true ∧ undisturbed s' = true ∧
    operandMissing (1#32).toNat s = false ∧ operandMissing (1#32).toNat s' = false ∧
    (∀ i, i < (1#32).toNat → Memory.read s.io.ibuf i = Memory.read s'.io.ibuf i) ∧
    (1#32).toNat ≤ 996 := by
  refine ⟨atRest_inv _ _, ?_, rfl, rfl, by decide, by decide, by decide, by decide, fun i hi => ?_,
    by decide⟩
  · have h := atRest_inv [0x41, 0x43] [0x0D]
    exact ⟨{ h.units with }, { h.ranges with bitcnt := by decide },
      by constructor <;> simp [withEngine, atRest, State.reset],
      { h.builder with crc := fun hx => by simp [withEngine, atRest, State.reset, afterCrcRun] at hx },
      { h.reader with }⟩
  · obtain rfl : i = 0 := by simp at hi; omega
    rfl

/-- A block at rest holds no result, and its lengths are 0; one whose operations have ended holds all of
them, one byte in each buffer. -/
theorem witness_UnwrittenResultsAreRefused :
    ((atRest [] []).io.crcWritten = false ∧ (atRest [] []).io.successWritten = false ∧
      frameLen (atRest [] []) ≤ 0 ∧ lineLen (atRest [] []) ≤ 0 ∧
      (atRest [] []).fb.phase = .idle ∧ (atRest [] []).lr.phase = .idle) ∧
    (let s := { withReader .idle [0x0D] (withBuilder .idle 3 0 [0x5E] (atRest [] [])) with
        io := { State.reset.io with crcWritten := true, successWritten := true } }
     s.io.crcWritten = true ∧ s.ce.phase = .idle ∧ s.fb.phase = .idle ∧ s.lr.phase = .idle ∧
      s.io.successWritten = true ∧
      Buffer.read s.fb.fbuf 0 = some 0x5E ∧ Buffer.read s.lr.lbuf 0 = some 0x0D ∧
      frameLen s ≤ 1 ∧ lineLen s ≤ 1) := by decide

/-- A READLINE that runs has written `SUCCESS`; after reset nothing has. -/
theorem witness_StatusMayBeReadAtAnyTime :
    ((acceptReadline 50#32 (atRest [] [])).io.busy = true ∧
      (acceptReadline 50#32 (atRest [] [])).io.successWritten = true) ∧
    (atRest [] []).io.successWritten = false := by decide

/-- Nothing written since the last command, and one byte held. -/
theorem witness_HostWritesFillTheOperand :
    (MachineInv (atRest [] []) ∧ (atRest [] []).io.busy = false ∧ (atRest [] []).io.ibufWritten = []) ∧
    MachineInv (atRest [0x41] []) ∧ (atRest [0x41] []).io.busy = false ∧
    0 < (Memory.leading (atRest [0x41] []).io.ibuf).length :=
  ⟨⟨atRest_inv _ _, rfl, rfl⟩, atRest_inv _ _, rfl, by decide⟩

/-- A step of a READLINE that runs, from a state that meets the invariant. -/
theorem witness_EveryStepKeepsTheInvariant :
    ∃ t, MachineInv (withReader .poll [0x41] (scripted [quiet 0] (running 50#32 (atRest [] [0x0D])))) ∧
      step (withReader .poll [0x41] (scripted [quiet 0] (running 50#32 (atRest [] [0x0D]))))
        = .next t ∧ t.lr.phase = .recv := ⟨_, reader_inv _ _ (by decide), rfl, rfl⟩

theorem witness_NoStepFaults :
    MachineInv (withReader .recv [0x41] (scripted [quiet 0] (running 50#32 (atRest [] [0x0D])))) ∧
    undisturbed (withReader .recv [0x41] (scripted [quiet 0] (running 50#32 (atRest [] [0x0D]))))
      = true ∧
    (withReader .recv [0x41] (scripted [quiet 0] (running 50#32 (atRest [] [0x0D])))).io.busy = true :=
  ⟨reader_inv _ _ (by decide), by decide, rfl⟩

theorem witness_TheFrameHasItsFields :
    (List.replicate 996 0x41#8).length ≤ 996 ∧ 995 < (List.replicate 996 0x41#8).length ∧
    ([] : List Byte).length ≤ 996 ∧ 7 + ([] : List Byte).length < 8 := by
  rw [List.length_replicate]
  decide

/-- A full accumulator, an unbounded one, and one with room for one byte. -/
theorem witness_FullAccumulatorIsRefused :
    (let s := withParams { vectorParams with lineCap := some 1 } (withReader .poll [0x41]
       (running 50#32 (atRest [] [0x42])))
     s.world.rxq ≠ [] ∧ s.params.lineCap = some (lineLen s)) ∧
    vectorParams.lineCap = none ∧
    (let s := withParams { vectorParams with lineCap := some 2 } (withReader .poll [0x41]
       (running 50#32 (atRest [] [0x42])))
     s.world.rxq ≠ [] ∧ s.params.lineCap = some 2 ∧ lineLen s < 2) := by decide

/-- The terminator, and a byte that differs from it in one bit. -/
theorem witness_ReceivedTerminatorStops :
    (let s := withReader .recv [0x41] (running 50#32 (atRest [] [0x0D, 0x42]))
     s.lr.phase = .recv ∧ s.world.rxq = 0x0D#8 :: [0x42]) ∧
    (let s := withReader .recv [0x41] (running 50#32 (atRest [] [0x8D]))
     s.lr.phase = .recv ∧ s.world.rxq = 0x8D#8 :: []) ∧ (0x8D : Byte) ≠ 0x0D#8 := by decide

theorem witness_TheFirstReasonIsNamed :
    (running 0#32 (atRest [] [])).io.busy = true ∧ (atRest [] []).io.busy = false ∧
    996 < (997#32).toNat := by decide

/-- A CRC16 that runs, a BUILD with one byte of its Frame, and a READLINE with a line of one byte, which
fills the accumulator. -/
theorem witness_ResultsInTheMakingReadAsFreeValues :
    ((acceptCrc16 0#32 (atRest [] [])).io.crcWritten = true ∧
      (acceptCrc16 0#32 (atRest [] [])).ce.phase ≠ .idle) ∧
    ((acceptBuild 0#32 (atRest [] [])).io.crcWritten = true ∧
      (acceptBuild 0#32 (atRest [] [])).fb.phase ≠ .idle) ∧
    (let s := withBuilder .mark1 3 0 [0x5E] (running 0#32 (atRest [] []))
     s.fb.phase ≠ .idle ∧ 0 < frameLen s) ∧
    (let s := withParams { vectorParams with lineCap := some 1 } (withReader .check [0x41]
       (running 50#32 (atRest [] [])))
     s.lr.phase ≠ .idle ∧ 0 < lineLen s ∧ s.params.lineCap = some 1) := by decide

theorem witness_ForbiddenHostMovesAreRefused :
    (running 0#32 (atRest [] [])).io.busy = true ∧
    (withReader .check [] (running 50#32 (atRest [] []))).lr.phase ≠ .idle := by decide

/-- At rest with a byte waiting, with none, and while a CRC16 runs. -/
theorem witness_HostCallsOfTheTransport :
    ((atRest [] [0x42]).lr.phase = .idle ∧ (atRest [] [0x42]).world.rxq = 0x42#8 :: []) ∧
    ((atRest [] []).lr.phase = .idle ∧ (atRest [] []).world.rxq = []) ∧
    ((acceptCrc16 0#32 (atRest [] [0x42])).lr.phase = .idle ∧
      (acceptCrc16 0#32 (atRest [] [0x42])).io.busy = true) := by decide

/-- A move that waits for `BUSY` = 0, at rest and while busy; counts of 0 and 1; and a count of 1 while an
operation runs whose next row is taken. -/
theorem witness_StepMakesTheHostMoveThatIsDue :
    (let s := queued [blocking .reset] (atRest [] [])
     s.io.cmd = none ∧ hostDue s = some (.reset, []) ∧ s.io.busy = false) ∧
    (queued [blocking .reset] (running 0#32 (atRest [] []))).io.busy = true ∧
    (queued [{ wait := .after 0, act := .reset }] (atRest [] [])).host.queue =
      [{ wait := .after 0, act := .reset }] ∧
    (let s := queued [{ wait := .after 1, act := .reset }] (atRest [] [])
     s.host.queue = [{ wait := .after 1, act := .reset }] ∧ s.io.cmd = none ∧ s.io.busy = false) ∧
    (let s := queued [{ wait := .after 1, act := .reset }]
       (scripted [quiet 0] (acceptCrc16 0#32 (atRest [] [])))
     s.host.queue = [{ wait := .after 1, act := .reset }] ∧ s.io.cmd = none ∧ s.io.busy = true ∧
      nextWith (fun t => t.ce.phase == .done)
        (step { s with host := { s.host with queue := [] } }) = true) := by decide

/-- A map whose windows lie one behind the other: the last byte of each, and the address behind. -/
theorem witness_BusAddressesNameTheRegisters :
    let m : BusMap := { cmd := 0, status := 1, crc := 2, frameLen := 3, lineLen := 4,
                        ibuf := { base := 5, size := 2 }, fbuf := { base := 7, size := 3 },
                        lbuf := { base := 10, size := 1 } }
    m.legal = true ∧ m.addr .status = some 1 ∧ m.addr (.ibuf 1) = some 6 ∧
    m.addr (.fbuf 2) = some 9 ∧ m.addr (.lbuf 0) = some 10 ∧ m.addr (.ibuf 2) = none := by decide

/-- Three bytes; at rest with a Frame in `FBUF`; and two timeouts that R8 allows, and two that it does not, where they
meet. -/
theorem witness_ExchangeIsBuildWriteReadline :
    mnemonicMod.length < 2 ^ 32 ∧
    (withBuilder .idle 3 0 [0x5E, 0x0D] (atRest [] [])).fb.phase = .idle ∧
    (let p : HostParams := { statusMnemonic := [0x47, 0x53], tMode := 100#32, tStatus := 101#32 }
     p.tMode.toNat < p.tStatus.toNat) ∧
    (let p : HostParams := { statusMnemonic := [0x47, 0x53], tMode := 100#32, tStatus := 100#32 }
     p.tStatus.toNat ≤ p.tMode.toNat) := by decide

theorem witness_CountersFitTheirRegisters :
    MachineInv (acceptBuild 996#32 (atRest (List.replicate 996 0x41#8) [])) :=
  inv_acceptBuild (atRest_inv _ _) _ rfl (by decide)
    (atRest_held _ _ _ (le_of_eq List.length_replicate.symm))

end Sys2Proof.Tests
end

/-! ## 00_scope.md: the parameters and the bus map

Under a legal bus map no two windows share an address, so the first window that `BusMap.reg` finds an
address in is the only one. -/

namespace Sys2Proof.Machine

/-! ### The parameters (R8, R29) -/

theorem exec_params {i : Instr} {s t : State} (h : exec i s = .next t) : t.params = s.params := by
  rcases exec_cases h with ⟨_, _, rfl⟩ | ⟨_, ⟨_, _, _, rfl⟩ | ⟨_, _, _, _, rfl⟩ | ⟨_, _, rfl⟩⟩
  all_goals rfl

theorem hostAct_params {a : HostAction} {s t : State} (h : hostAct a s = .next t) :
    t.params = s.params := by
  rcases hostAct_cases h with ⟨_, _, _, _, rfl⟩ | ⟨_, _, rfl⟩ | ⟨_, rfl⟩ | ⟨_, _, rfl⟩ |
    ⟨_, _, _, _, _, rfl⟩ | ⟨_, rfl⟩
  all_goals rfl

/-- What a row of any unit leaves unchanged. -/
theorem unitMicro_rowFrame {s t : State} (h : unitMicro s = .next t) : RowFrame s t := by
  rcases unitMicro_cases h with ⟨_, h⟩ | ⟨_, _, h⟩ | ⟨_, _, h⟩
  · exact (lrMicro_frame h).1
  · exact (fbMicro_frame h).1
  · exact (crcMicro_frame h).1

/-- Settles O39: neither a command, nor a move of the host, nor a row of a unit changes the parameters. -/
theorem parametersNeverChange : Obligations.ParametersNeverChange := by
  intro s t h
  rcases step_cases h with ⟨_, _, h⟩ | ⟨_, _, _, _, h⟩ | ⟨_, _, _, h⟩ | ⟨_, _, _, rfl⟩
  · exact (exec_params h).trans rfl
  · exact (hostAct_params h).trans rfl
  · exact (unitMicro_rowFrame h).params
  · rfl

end Sys2Proof.Machine

namespace Sys2Proof

open Machine

/-! ### Windows of the bus map (R8, D3) -/

theorem Window.addr_eq_some {w : Window} {i a : Nat} :
    w.addr i = some a ↔ i < w.size ∧ w.base + i = a := by
  simp [Window.addr]

theorem Window.has_iff {w : Window} {a : Nat} : w.has a = true ↔ w.base ≤ a ∧ a < w.base + w.size := by
  simp [Window.has]

@[simp] theorem Window.has_single (a b : Nat) : (Window.single b).has a = decide (a = b) := by
  rw [Bool.eq_iff_iff, Window.has_iff, decide_eq_true_iff]
  simp only [Window.single]
  omega

theorem Window.not_has_of_apart {v w : Window} {a : Nat} (h : v.apart w = true) (hw : w.has a = true) :
    v.has a = false := by
  rw [← Bool.not_eq_true, Window.has_iff]
  rw [Window.has_iff] at hw
  simp only [Window.apart, Bool.or_eq_true, decide_eq_true_iff] at h
  omega

/-! ### The register at an address (R26) -/

/-- The window of each register or buffer, with the name of what stands at each offset in it. -/
def BusMap.regWindows (m : BusMap) : List (Window × (Nat → HostReg)) :=
  [(.single m.cmd, fun _ => .cmd), (.single m.status, fun _ => .status), (.single m.crc, fun _ => .crc),
   (.single m.frameLen, fun _ => .frameLen), (.single m.lineLen, fun _ => .lineLen),
   (m.ibuf, .ibuf), (m.fbuf, .fbuf), (m.lbuf, .lbuf)]

/-- What a named window has at an address, if the address lies in it. -/
def Window.pick (a : Nat) (p : Window × (Nat → HostReg)) : Option HostReg :=
  if p.1.has a then some (p.2 (a - p.1.base)) else none

theorem Window.findSome_pick_cons (a : Nat) (p : Window × (Nat → HostReg))
    (ps : List (Window × (Nat → HostReg))) :
    (p :: ps).findSome? (Window.pick a) =
      if p.1.has a then some (p.2 (a - p.1.base)) else ps.findSome? (Window.pick a) := by
  cases h : p.1.has a <;> simp [Window.pick, h]

theorem BusMap.windows_eq_map (m : BusMap) : m.windows = m.regWindows.map Prod.fst := rfl

theorem BusMap.regWindows_apart {m : BusMap} (h : m.legal = true) :
    m.regWindows.Pairwise fun p q => p.1.apart q.1 = true := by
  rw [← List.pairwise_map (f := Prod.fst) (R := fun v w => Window.apart v w = true),
    ← m.windows_eq_map]
  exact of_decide_eq_true h

/-- `BusMap.reg` is the search for the first window an address lies in. -/
theorem BusMap.reg_eq_findSome (m : BusMap) (a : Nat) :
    m.reg a = m.regWindows.findSome? (Window.pick a) := by
  simp [BusMap.reg, BusMap.regWindows, Window.findSome_pick_cons, Window.pick]

/-- Among windows that share no address, the search ends in the window that has the address. -/
theorem Window.findSome_pick_of_mem {ps : List (Window × (Nat → HostReg))} {a : Nat}
    (hps : ps.Pairwise fun p q => p.1.apart q.1 = true) {p : Window × (Nat → HostReg)} (hp : p ∈ ps)
    (ha : p.1.has a = true) : ps.findSome? (Window.pick a) = some (p.2 (a - p.1.base)) := by
  induction ps with
  | nil => cases hp
  | cons q ps ih =>
    obtain ⟨hq, hps⟩ := List.pairwise_cons.mp hps
    rw [Window.findSome_pick_cons]
    rcases List.mem_cons.mp hp with rfl | hp
    · exact if_pos ha
    · simpa [Window.not_has_of_apart (hq p hp) ha] using ih hps hp

theorem Window.has_of_addr {w : Window} {i a : Nat} (h : w.addr i = some a) :
    w.has a = true ∧ a - w.base = i := by
  obtain ⟨hi, rfl⟩ := Window.addr_eq_some.mp h
  exact ⟨Window.has_iff.mpr (by omega), by omega⟩

/-- An address of a register lies in that register's window, at that register's offset. -/
theorem BusMap.mem_regWindows_of_addr {m : BusMap} {r : HostReg} {a : Nat} (h : m.addr r = some a) :
    ∃ p ∈ m.regWindows, p.1.has a = true ∧ p.2 (a - p.1.base) = r := by
  cases r with
  | busy | done | success => cases h
  | cmd | status | crc | frameLen | lineLen =>
    refine ⟨(.single a, fun _ => _), ?_, by simp, rfl⟩
    cases h
    simp [BusMap.regWindows]
  | ibuf i =>
    obtain ⟨ha, hi⟩ := Window.has_of_addr h
    exact ⟨(m.ibuf, .ibuf), by simp [BusMap.regWindows], ha, congrArg _ hi⟩
  | fbuf i =>
    obtain ⟨ha, hi⟩ := Window.has_of_addr h
    exact ⟨(m.fbuf, .fbuf), by simp [BusMap.regWindows], ha, congrArg _ hi⟩
  | lbuf i =>
    obtain ⟨ha, hi⟩ := Window.has_of_addr h
    exact ⟨(m.lbuf, .lbuf), by simp [BusMap.regWindows], ha, congrArg _ hi⟩

/-- Under a legal map `BusMap.reg` undoes `BusMap.addr`. -/
theorem BusMap.reg_of_addr {m : BusMap} (hm : m.legal = true) {r : HostReg} {a : Nat}
    (h : m.addr r = some a) : m.reg a = some r := by
  obtain ⟨p, hp, ha, rfl⟩ := BusMap.mem_regWindows_of_addr h
  rw [BusMap.reg_eq_findSome]
  exact Window.findSome_pick_of_mem (BusMap.regWindows_apart hm) hp ha

/-! ### Accesses on the bus (R26, log 14, log 33) -/

theorem busAction_read {m : BusMap} {a : Nat} {r : HostReg} (h : m.reg a = some r) :
    busAction m (.read a) = some (.readReg r) := by
  simp [busAction, h]

theorem busAction_write {m : BusMap} {a : Nat} {r : HostReg} (h : m.reg a = some r) (w : CmdWord) :
    busAction m (.write a w) = some (busWrite w r) := by
  simp [busAction, h]

theorem busWrite_readOnly (w : CmdWord) {r : HostReg} (hc : r ≠ .cmd) (hi : ∀ i, r ≠ .ibuf i) :
    ∃ q, busWrite w r = .writeReg q := by
  cases r with
  | cmd => exact absurd rfl hc
  | ibuf i => exact absurd rfl (hi i)
  | _ => exact ⟨_, rfl⟩

/-- Settles O59: every access looks its register up by `BusMap.reg`, which undoes `BusMap.addr`. -/
theorem busAddressesNameTheRegisters : Obligations.BusAddressesNameTheRegisters := by
  intro m hm
  refine ⟨fun r a h => ?_, fun w => ?_, fun w i a h => ?_, fun w r a h hc hi => ?_⟩
  · have hr := BusMap.reg_of_addr hm h
    exact ⟨hr, busAction_read hr⟩
  · exact busAction_write (BusMap.reg_of_addr hm (r := .cmd) rfl) w
  · exact busAction_write (BusMap.reg_of_addr hm h) w
  · obtain ⟨q, hq⟩ := busWrite_readOnly w hc hi
    exact ⟨q, hq ▸ busAction_write (BusMap.reg_of_addr hm h) w⟩

end Sys2Proof

/-! ## 10_state.md: the state, the interface and the invariant

`step_cases`, `exec_cases`, `hostAct_cases` and `unitMicro_cases` say every way a step answers a next
state; each statement about every step is read off them. The statements about one host move go through
what that move's reads see. -/

namespace Sys2Proof.Machine

/-! ### The invariant (R20, R30) -/

/-- Settles O48: each way a step answers a next state begins with a move of the environment, and each of
its parts keeps the invariant. -/
theorem everyStepKeepsTheInvariant : Obligations.EveryStepKeepsTheInvariant := by
  intro s t hs h
  have he := inv_envMove hs
  rcases step_cases h with ⟨_, _, h⟩ | ⟨_, _, rest, _, h⟩ | ⟨_, _, hb, h⟩ | ⟨_, _, _, rfl⟩
  · exact inv_exec (inv_withCmd he none) h
  · exact inv_hostAct (inv_withQueue he rest) h
  · exact inv_unitMicro (inv_withQueue he _) hb h
  · exact inv_withQueue he _

/-- Settles O47: every unit is in `IDLE`, every counter is 0 and every buffer empty. -/
theorem resetMeetsTheInvariant : Obligations.ResetMeetsTheInvariant where
  units := by constructor <;> simp [State.reset]
  ranges := by constructor <;> simp [State.reset, Memory.wf, Params.default]
  engine := by constructor <;> simp [State.reset]
  builder := by constructor <;> simp [State.reset, beforeCopy, afterCrcRun]
  reader := by constructor <;> simp [State.reset, lineLen]

theorem operand_length_le (s : State) : (operand s).length ≤ operandLen s := List.length_take_le _ _

/-- `FBUF` never holds more than a Frame of the longest mnemonic (R22, R132). -/
theorem frameLen_le {s : State} (h : MachineInv s) : frameLen s ≤ maxMnemonic + 8 := by
  unfold frameLen
  by_cases hp : s.fb.phase = .idle
  · rcases h.builder.result hp with hf | ⟨m, hm, hf⟩
    · simp [hf]
    · simp [hf, hm]
  · have hl := h.builder.legal hp
    have ho := operand_length_le s
    rw [h.builder.soFar hp, List.length_take, buildFrame_length]
    omega

/-- Settles O50: the ranges of the invariant lie within the widths, and between operations `FBUF` is
empty or a whole Frame. -/
theorem countersFitTheirRegisters : Obligations.CountersFitTheirRegisters := by
  intro s h
  refine ⟨lt_of_le_of_lt h.ranges.bitcnt (by decide), lt_of_le_of_lt h.ranges.len (by decide),
    lt_of_le_of_lt h.ranges.fbIdx (by decide), frameLen_le h, fun hp => ?_⟩
  rcases h.builder.result hp with hf | ⟨m, _, hf⟩
  · simp [frameLen, hf]
  · simp [frameLen, hf]

/-! ### What each move keeps of the units and of `BUSY` (R26, R32) -/

/-- No host action but a reset touches a unit or `BUSY`. -/
theorem hostAct_keeps_units {a : HostAction} {s t : State} (h : hostAct a s = .next t)
    (ha : a ≠ .reset) :
    t.ce = s.ce ∧ t.fb = s.fb ∧ t.lr = s.lr ∧ t.io.busy = s.io.busy := by
  rcases hostAct_cases h with ⟨_, _, _, _, rfl⟩ | ⟨_, _, rfl⟩ | ⟨_, rfl⟩ | ⟨_, _, rfl⟩ |
    ⟨_, _, _, _, _, rfl⟩ | ⟨hr, _⟩
  case inr.inr.inr.inr.inr => exact absurd hr ha
  all_goals exact ⟨rfl, rfl, rfl, rfl⟩

theorem exec_keeps_fb {i : Instr} {s t : State} (h : exec i s = .next t) (hi : ∀ n, i ≠ .build n) :
    t.fb = s.fb := by
  rcases exec_cases h with ⟨_, _, rfl⟩ | ⟨_, ⟨_, _, _, rfl⟩ | ⟨n, hn, _⟩ | ⟨_, _, rfl⟩⟩
  case inr.inr.inl => exact absurd hn (hi n)
  all_goals rfl

theorem exec_keeps_ce {i : Instr} {s t : State} (h : exec i s = .next t) (hi : ∀ n, i ≠ .crc16 n) :
    t.ce = s.ce := by
  rcases exec_cases h with ⟨_, _, rfl⟩ | ⟨_, ⟨n, hn, _⟩ | ⟨_, _, _, _, rfl⟩ | ⟨_, _, rfl⟩⟩
  case inr.inl => exact absurd hn (hi n)
  all_goals rfl

theorem exec_keeps_lr {i : Instr} {s t : State} (h : exec i s = .next t) (hi : ∀ n, i ≠ .readline n) :
    t.lr = s.lr := by
  rcases exec_cases h with ⟨_, _, rfl⟩ | ⟨_, ⟨_, _, _, rfl⟩ | ⟨_, _, _, _, rfl⟩ | ⟨n, hn, _⟩⟩
  case inr.inr.inr => exact absurd hn (hi n)
  all_goals rfl

/-- A command that answers a next state either leaves the interface as it was or starts an operation. -/
theorem exec_io {i : Instr} {s t : State} (h : exec i s = .next t) :
    t.io = s.io ∨ t.io.busy = true ∧ t.io.done = false ∧ s.io.busy = false ∧
      ∃ n, i = .crc16 n ∨ i = .build n ∨ i = .readline n := by
  rcases exec_cases h with ⟨_, _, rfl⟩ | ⟨hb, ⟨n, hi, _, rfl⟩ | ⟨n, hi, _, _, rfl⟩ | ⟨n, hi, rfl⟩⟩
  · exact .inl rfl
  · exact .inr ⟨rfl, rfl, hb, n, .inl hi⟩
  · exact .inr ⟨rfl, rfl, hb, n, .inr (.inl hi)⟩
  · exact .inr ⟨rfl, rfl, hb, n, .inr (.inr hi)⟩

theorem unitMicro_keeps_fb {s t : State} (h : unitMicro s = .next t) (hf : s.fb.phase = .idle) :
    t.fb = s.fb := by
  rcases unitMicro_cases h with ⟨_, h⟩ | ⟨_, hne, _⟩ | ⟨_, _, h⟩
  · obtain ⟨_, _, _, hfb, _⟩ := lrMicro_frame h
    exact hfb
  · exact absurd hf hne
  · obtain ⟨_, _, _, hfb⟩ := crcMicro_frame h
    exact hfb.resolve_right (by simp [hf])

theorem unitMicro_keeps_ce {s t : State} (h : unitMicro s = .next t) (hf : s.fb.phase = .idle)
    (hc : s.ce.phase = .idle) : t.ce = s.ce := by
  rcases unitMicro_cases h with ⟨_, h⟩ | ⟨_, hne, _⟩ | ⟨_, _, h⟩
  · obtain ⟨_, _, hce, _⟩ := lrMicro_frame h
    exact hce
  · exact absurd hf hne
  · simp [crcMicro, hc, hf] at h

theorem unitMicro_keeps_lr {s t : State} (h : unitMicro s = .next t) (hl : s.lr.phase = .idle) :
    t.lr = s.lr := by
  rcases unitMicro_cases h with ⟨hne, _⟩ | ⟨_, _, h⟩ | ⟨_, _, h⟩
  · exact absurd hl hne
  · obtain ⟨_, _, hlr, _⟩ := fbMicro_frame h
    exact hlr
  · obtain ⟨_, hlr, _⟩ := crcMicro_frame h
    exact hlr

/-- Settles O33: a unit's registers move only when its own command is accepted, in its own rows, or, for
the CRC Engine, in the Frame Builder's. -/
theorem resultsStandUntilTheNextOfTheirKind : Obligations.ResultsStandUntilTheNextOfTheirKind := by
  intro s t h hr
  rcases step_cases h with ⟨w, hw, h⟩ | ⟨_, a, rest, hd, h⟩ | ⟨_, _, _, h⟩ | ⟨_, _, _, rfl⟩
  · exact ⟨fun _ hi => (exec_keeps_fb h fun n => hi w n hw).trans rfl,
      fun _ _ hi => (exec_keeps_ce h fun n => hi w n hw).trans rfl,
      fun _ hi => (exec_keeps_lr h fun n => hi w n hw).trans rfl⟩
  · obtain ⟨hce, hfb, hlr, _⟩ := hostAct_keeps_units h fun ha => hr rest (ha ▸ hd)
    exact ⟨fun _ _ => hfb, fun _ _ _ => hce, fun _ _ => hlr⟩
  · exact ⟨fun hf _ => (unitMicro_keeps_fb h hf).trans rfl,
      fun hf hc _ => (unitMicro_keeps_ce h hf hc).trans rfl,
      fun hl _ => (unitMicro_keeps_lr h hl).trans rfl⟩
  · exact ⟨fun _ _ => rfl, fun _ _ _ => rfl, fun _ _ => rfl⟩

/-- Settles O34: `BUSY` rises only where a command is accepted, and falls only in the last row of an
operation or in a reset. -/
theorem statusFollowsTheOperation : Obligations.StatusFollowsTheOperation := by
  intro s t h
  rcases step_cases h with ⟨w, hw, h⟩ | ⟨_, a, rest, hd, h⟩ | ⟨_, _, hb, h⟩ | ⟨_, _, _, rfl⟩
  · rcases exec_io h with hio | ⟨hbt, hdt, hbs, n, hi⟩
    · have hbusy : t.io.busy = s.io.busy := (congrArg IoRegs.busy hio).trans rfl
      exact ⟨fun h0 h1 => by simp [hbusy, h0] at h1, fun h1 h0 => by simp [hbusy, h1] at h0⟩
    · exact ⟨fun _ _ => ⟨hdt, w, n, hw, hi⟩, fun _ h0 => by simp [hbt] at h0⟩
  · by_cases ha : a = .reset
    · subst ha
      cases h
      exact ⟨fun _ h1 => by simp [State.reset] at h1, fun _ _ => .inr ⟨rest, hd⟩⟩
    · obtain ⟨_, _, _, hbusy⟩ := hostAct_keeps_units h ha
      exact ⟨fun h0 h1 => by simp [hbusy, h0] at h1, fun h1 h0 => by simp [hbusy, h1] at h0⟩
  · refine ⟨fun h0 _ => by simp [hb] at h0, fun _ h0 => ?_⟩
    rcases (unitMicro_rowFrame h).ends with hio | ⟨_, hdone⟩
    · simp [hio, hb] at h0
    · exact .inl hdone
  · exact ⟨fun h0 h1 => by simp [h0] at h1, fun h1 h0 => by simp [h1] at h0⟩

/-! ### A pending command and a waiting block (R26, R30) -/

theorem decodeWord_encode (i : Instr) : decodeWord (encode i) = i := by
  cases i with
  | idle a =>
    obtain ⟨ho, ha⟩ := Laws.EncodeFields.idle a
    simp [decodeWord, ho, ha, Instr.op, Instr.arg]
  | crc16 a =>
    obtain ⟨ho, ha⟩ := Laws.EncodeFields.crc16 a
    simp [decodeWord, ho, ha, Instr.op, Instr.arg]
  | build a =>
    obtain ⟨ho, ha⟩ := Laws.EncodeFields.build a
    simp [decodeWord, ho, ha, Instr.op, Instr.arg]
  | readline a =>
    obtain ⟨ho, ha⟩ := Laws.EncodeFields.readline a
    simp [decodeWord, ho, ha, Instr.op, Instr.arg]

theorem decodeBytes_encodeBytes (i : Instr) : decodeBytes (encodeBytes i) = .ok i := by
  have hw := (encode i).isLt
  have hn : numberOfBytes (encodeBytes i) = (encode i).toNat := by
    rw [encodeBytes, numberOfBytes_bytesOfNumber, commandBytes]
    omega
  have hl : (encodeBytes i).length = commandBytes := bytesOfNumber_length _ _
  rw [decodeBytes, if_pos hl, hn, if_pos hw, BitVec.ofNat_toNat,
    BitVec.setWidth_eq, decodeWord_encode]

/-- A word of 34 bits is not cut by the 40 bits that its five bytes hold. -/
theorem encode_mod (i : Instr) : (encode i).toNat % 2 ^ 40 = (encode i).toNat := by
  have hw := (encode i).isLt
  omega

theorem decodeTableWord_encode (i : Instr) : decodeTableWord 40 (encode i).toNat = some i := by
  have h := decodeBytes_encodeBytes i
  rw [encodeBytes] at h
  rw [decodeTableWord, encode_mod, h]

theorem withFetchWord_encode (s : State) (i : Instr) :
    s.withFetchWord 40 (encode i).toNat = { s with io := { s.io with cmd := some (encode i) } } := by
  rw [State.withFetchWord, encode_mod, BitVec.ofNat_toNat, BitVec.setWidth_eq]

/-- Settles O5: the host's write and the word placed from outside both leave a word pending, which
`step_pending` takes up. -/
theorem stepTakesUpThePendingCommand : Obligations.StepTakesUpThePendingCommand := by
  refine ⟨step_pending, fun s w => ⟨_, rfl, rfl, step_pending _ w rfl⟩, fun s i =>
    ⟨decodeTableWord_encode i, ?_⟩⟩
  rw [withFetchWord_encode, step_pending _ _ rfl, decodeWord_encode]

/-- A step in which the block waits: the environment moves and the host's count, if it has one, goes
down (log 26). -/
theorem step_waiting {s : State} (hc : s.io.cmd = none) (hb : s.io.busy = false)
    (hd : hostDue s = none) : step s = .next (withQueue (queueTick s.host.queue) (envMove s)) := by
  simp [step_advance s hc, advance, hd, blockStep, hb]

/-- Settles O6: with no host move left none is due and no count goes down. -/
theorem waitingBlockOnlyLetsTheEnvironmentMove :
    Obligations.WaitingBlockOnlyLetsTheEnvironmentMove := by
  intro s hc hb hq
  have hd : hostDue s = none := by simp [hostDue, hq]
  have hblocked : hostBlocked (envMove s) = true := by simp [hostBlocked, hq]
  rw [step_waiting hc hb hd]
  exact congrArg _ (queueTick_blocked _ hblocked)

/-! ### Host writes of `IBUF` (R26, R50, R51) -/

theorem hostAct_writeIbuf {s : State} (hb : s.io.busy = false) (i : Nat) (bs : List Byte) :
    hostAct (.writeIbuf i bs) s = .next { s with io := writeIbuf i bs s.io } := by
  simp [hostAct, hb]

/-- A rising list of the indices below `n` has `n` entries. -/
theorem length_of_rising {js : List Nat} {n : Nat} (h : js.Pairwise (· < ·))
    (hm : ∀ j, j ∈ js ↔ j < n) : js.length = n := by
  have hset : js.toFinset = Finset.range n := by
    ext j
    simp [hm]
  rw [← List.toFinset_card_of_nodup (h.imp Nat.ne_of_lt), hset, Finset.card_range]

/-- A space that holds the bytes of `l` at the indices from 0 on is read as starting with `l`. -/
theorem leading_take {m : List Host.Cell} {l : List Byte} (hw : Memory.wf m = true)
    (h : ∀ j < l.length, Memory.read m j = l[j]?) : (Memory.leading m).take l.length = l := by
  have hlen : l.length ≤ (Memory.leading m).length :=
    (leading_length hw _).mpr fun j hj => by simp [h j hj, hj]
  refine List.ext_getElem? fun j => ?_
  by_cases hj : j < l.length
  · rw [List.getElem?_take_of_lt hj, ← h j hj, read_leading j m (by omega), Buffer.read]
  · rw [List.getElem?_take_eq_none (by omega), List.getElem?_eq_none (by omega)]

/-- What two writes of the pieces of an operand leave, in either order. -/
theorem read_pieces (xs ys : List Byte) (m : List Host.Cell) {j : Nat} (hj : j < (xs ++ ys).length) :
    Memory.read (Memory.writeFrom xs.length ys (Memory.writeFrom 0 xs m)) j = (xs ++ ys)[j]? ∧
    Memory.read (Memory.writeFrom 0 xs (Memory.writeFrom xs.length ys m)) j = (xs ++ ys)[j]? := by
  rw [List.length_append] at hj
  simp only [read_writeFrom]
  by_cases hx : j < xs.length
  · have hin : 0 ≤ j ∧ j < 0 + xs.length := by omega
    have hout : ¬(xs.length ≤ j ∧ j < xs.length + ys.length) := by omega
    simp only [if_pos hin, if_neg hout, List.getElem?_append_left hx, Nat.sub_zero, and_self]
  · have hout : ¬(0 ≤ j ∧ j < 0 + xs.length) := by omega
    have hin : xs.length ≤ j ∧ j < xs.length + ys.length := by omega
    simp only [if_pos hin, if_neg hout, List.getElem?_append_right (not_lt.mp hx), and_self]

/-- Settles O43: reads after a write are `read_writeFrom`, the indices counted are `mem_addIndices`, and
two pieces in either order fill the same indices. -/
theorem hostWritesFillTheOperand : Obligations.HostWritesFillTheOperand := by
  intro s h hb
  refine ⟨fun i bs => ⟨_, hostAct_writeIbuf hb i bs, fun j hi hj => ?_, fun j hj => ?_,
      (mem_addIndices i bs.length · s.io.ibufWritten), rfl⟩,
    fun n => ?_, fun i hi => (read_leading i _ hi).symm, fun he xs ys => ?_⟩
  · exact (read_writeFrom i j bs _).trans (if_pos ⟨hi, hj⟩)
  · exact (read_writeFrom i j bs _).trans (if_neg (by omega))
  · simpa only [Option.isSome_iff_ne_none] using leading_length h.ranges.ibuf n
  · have hx := inv_writeIbuf h hb 0 xs
    have hy := inv_writeIbuf h hb xs.length ys
    have hxy := (inv_writeIbuf hx hb xs.length ys).ranges
    have hyx := (inv_writeIbuf hy hb 0 xs).ranges
    refine ⟨_, _, _, _, hostAct_writeIbuf hb _ _, hostAct_writeIbuf (by exact hb) _ _,
      hostAct_writeIbuf hb _ _, hostAct_writeIbuf (by exact hb) _ _,
      length_of_rising hxy.rising fun j => ?_, length_of_rising hyx.rising fun j => ?_,
      leading_take hxy.ibuf fun j hj => (read_pieces xs ys _ hj).1,
      leading_take hyx.ibuf fun j hj => (read_pieces xs ys _ hj).2⟩
    all_goals
      simp only [writeIbuf_ibufWritten, mem_addIndices, he, List.not_mem_nil, or_false,
        List.length_append]
      omega

/-! ### Host reads (R26, R30, R203) -/

@[simp] theorem handBackIf_true (v : Nat) (s : State) : handBackIf true v s = handBack v s := rfl

@[simp] theorem handBackIf_false (v : Nat) (s : State) :
    handBackIf false v s = .refused .unwrittenRead := rfl

/-- A read of a byte below the length hands back a byte, the buffer's own unless it is being made. -/
theorem readByte_of_read {making : Bool} {b : Buffer} {i : Nat} {v : Byte}
    (h : Buffer.read b i = some v) (s : State) : readByte making b i s =
      handBack (if making then Config.freeByteRead (readCount s) else v).toNat s := by
  simp [readByte, h]

theorem readByte_refused {b : Buffer} {i : Nat} (h : b.length ≤ i) (making : Bool) (s : State) :
    readByte making b i s = .refused .unwrittenRead := by
  simp [readByte, read_isNone b i h]

@[simp] theorem makingCrc_iff (s : State) :
    makingCrc s = true ↔ s.ce.phase ≠ .idle ∨ s.fb.phase ≠ .idle := by
  simp [makingCrc]

@[simp] theorem makingFrame_iff (s : State) : makingFrame s = true ↔ s.fb.phase ≠ .idle := by
  simp [makingFrame]

@[simp] theorem makingLine_iff (s : State) : makingLine s = true ↔ s.lr.phase ≠ .idle := by
  simp [makingLine]

theorem visibleCrc_idle {s : State} (hc : s.ce.phase = .idle) (hf : s.fb.phase = .idle) :
    visibleCrc s = s.ce.crc := by
  simp [visibleCrc, hc, hf]

theorem visibleFrameLen_idle {s : State} (h : s.fb.phase = .idle) : visibleFrameLen s = frameLen s := by
  simp [visibleFrameLen, h]

theorem visibleLineLen_idle {s : State} (h : s.lr.phase = .idle) : visibleLineLen s = lineLen s := by
  simp [visibleLineLen, h]

theorem visibleFrameLen_lt {s : State} (h : s.fb.phase ≠ .idle) : visibleFrameLen s < 2 ^ 11 := by
  rw [visibleFrameLen, if_pos ((makingFrame_iff s).mpr h)]
  exact BitVec.isLt _

theorem visibleLineLen_le {s : State} (h : s.lr.phase ≠ .idle) {c : Nat}
    (hc : s.params.lineCap = some c) : visibleLineLen s ≤ c := by
  simp [visibleLineLen, h, hc]

/-- `STATUS` as a number (R26). -/
theorem statusWord_toNat (s : State) : (statusWord s).toNat =
    (if s.io.busy then 1 else 0) + (if s.io.done then 2 else 0) +
      (if visibleSuccess s then 4 else 0) := by
  unfold statusWord
  cases s.io.busy <;> cases s.io.done <;> cases visibleSuccess s <;> rfl

/-- Settles O41: a result that holds a value reads as it stands while nothing makes it. -/
theorem unwrittenResultsAreRefused : Obligations.UnwrittenResultsAreRefused := by
  intro s
  simp only [hostAct, hostRead]
  refine ⟨fun h => ?_, fun h hc hf => ?_, fun h => ?_, fun h => ?_, fun i h => readByte_refused h _ s,
    fun i b hf h => ?_, fun i h => readByte_refused h _ s, fun i b hl h => ?_, fun hf => ?_,
    fun hl => ?_⟩
  · rw [h, handBackIf_false]
  · rw [h, handBackIf_true, visibleCrc_idle hc hf]
    rfl
  · rw [h, handBackIf_false]
  · rw [h, handBackIf_true]
    rfl
  · rw [readByte_of_read h, if_neg (by simpa using hf)]
    rfl
  · rw [readByte_of_read h, if_neg (by simpa using hl)]
    rfl
  · rw [visibleFrameLen_idle hf]
    rfl
  · rw [visibleLineLen_idle hl]
    rfl

/-- Settles O42: `STATUS` is read whatever `BUSY` is, and its bit 2 is `SUCCESS` once that is
written. -/
theorem statusMayBeReadAtAnyTime : Obligations.StatusMayBeReadAtAnyTime := by
  intro s
  refine ⟨?_, ?_, visibleSuccess s, fun h => by simp [visibleSuccess, h], ?_⟩
  · simp only [hostAct, hostRead]
    cases s.io.busy <;> rfl
  · simp only [hostAct, hostRead]
    cases s.io.done <;> rfl
  · rw [hostAct, hostRead, statusWord_toNat]
    rfl

/-- Settles O46: no operation has written a result and the buffers are empty. -/
theorem resetStateHoldsNoResult : Obligations.ResetStateHoldsNoResult :=
  ⟨rfl, rfl, rfl, rfl, rfl, rfl, rfl, rfl, rfl, rfl, rfl, fun _ => rfl, fun _ => rfl,
    ⟨_, rfl, rfl⟩, ⟨_, rfl, rfl⟩⟩

/-- Settles O55: what such a read sees is a free value within its register's width. -/
theorem resultsInTheMakingReadAsFreeValues : Obligations.ResultsInTheMakingReadAsFreeValues := by
  intro s
  refine ⟨fun h _ => ⟨visibleCrc s, ?_⟩, fun hf => ⟨_, visibleFrameLen_lt hf, rfl⟩,
    fun hl => ⟨_, fun c hc => visibleLineLen_le hl hc, rfl⟩,
    fun i _ hi => ⟨_, readByte_of_read (read_isSome _ _ hi) s⟩,
    fun i _ hi => ⟨_, readByte_of_read (read_isSome _ _ hi) s⟩,
    fun hf => ⟨_, visibleFrame_length hf, rfl⟩⟩
  rw [hostAct, hostRead, h, handBackIf_true]
  rfl

/-- Settles O56: the guards of `hostAct` and the write-only arms of `hostRead`. -/
theorem forbiddenHostMovesAreRefused : Obligations.ForbiddenHostMovesAreRefused := by
  intro s
  refine ⟨fun i bs hb => if_pos hb, fun hl => ?_, rfl, fun _ => rfl, fun _ => rfl⟩
  have hm := (makingLine_iff s).mpr hl
  exact ⟨if_pos hm, if_pos hm⟩

end Sys2Proof.Machine

/-! ## 20_memory.md: buffers, transport and clock

A step is a move of the environment and then a command, a host action, a row of a unit or nothing. Each of
these four keeps the clock, and what each does to `IBUF` and to the two streams is one lemma here. -/

namespace Sys2Proof.Machine

/-! ### What each kind of move does to the transport and the clock (R59 to R62) -/

/-- A command touches neither the transport nor the clock. -/
theorem exec_world {i : Instr} {s t : State} (h : exec i s = .next t) : t.world = s.world := by
  rcases exec_cases h with ⟨_, _, rfl⟩ | ⟨_, ⟨_, _, _, rfl⟩ | ⟨_, _, _, _, rfl⟩ | ⟨_, _, rfl⟩⟩
  all_goals rfl

theorem hostAct_clock {a : HostAction} {s t : State} (h : hostAct a s = .next t) :
    t.world.clock = s.world.clock := by
  rcases hostAct_cases h with ⟨_, _, _, _, rfl⟩ | ⟨_, _, rfl⟩ | ⟨_, rfl⟩ | ⟨_, _, rfl⟩ |
    ⟨_, _, _, _, _, rfl⟩ | ⟨_, rfl⟩
  all_goals rfl

/-- A host action takes at most one byte off the receive stream, and only when it drains the transport. -/
theorem hostAct_rxq {a : HostAction} {s t : State} (h : hostAct a s = .next t) :
    ∃ taken, s.world.rxq = taken ++ t.world.rxq ∧ taken.length ≤ 1 ∧ (taken ≠ [] → a = .takeByte) := by
  rcases hostAct_cases h with ⟨_, _, _, _, rfl⟩ | ⟨_, _, rfl⟩ | ⟨_, rfl⟩ | ⟨_, _, rfl⟩ |
    ⟨b, _, ha, _, hrx, rfl⟩ | ⟨_, rfl⟩
  case inr.inr.inr.inr.inl => exact ⟨[b], hrx, le_rfl, fun _ => ha⟩
  all_goals exact ⟨[], rfl, Nat.zero_le _, fun hne => absurd rfl hne⟩

/-- A host action leaves the transmit stream as it is, or is a write, whose bytes it adds at the tail. -/
theorem hostAct_txq {a : HostAction} {s t : State} (h : hostAct a s = .next t) :
    t.world.txq = s.world.txq ∨
    ∃ bs, (a = .transmit bs ∨ a = .transmitFrame ∧ bs = visibleFrame s) ∧
      t.world.txq = s.world.txq ++ bs := by
  rcases hostAct_cases h with ⟨_, _, _, _, rfl⟩ | ⟨_, _, rfl⟩ | ⟨_, rfl⟩ | ⟨bs, ha, rfl⟩ |
    ⟨_, _, _, _, _, rfl⟩ | ⟨_, rfl⟩
  case inr.inr.inr.inl => exact .inr ⟨bs, ha, rfl⟩
  all_goals exact .inl rfl

/-- A row of a unit takes at most one byte off the receive stream, and only in phase `RECV` of the Line
Reader. -/
theorem unitMicro_rxq {s t : State} (h : unitMicro s = .next t) :
    ∃ taken, s.world.rxq = taken ++ t.world.rxq ∧ taken.length ≤ 1 ∧
      (taken ≠ [] → s.lr.phase = .recv) := by
  rcases unitMicro_cases h with ⟨_, h⟩ | ⟨_, _, h⟩ | ⟨_, _, h⟩
  · obtain ⟨_, _, _, _, taken, hrx, _, hlen, hphase⟩ := lrMicro_frame h
    exact ⟨taken, hrx, hlen, hphase⟩
  · obtain ⟨_, _, _, hw⟩ := fbMicro_frame h
    exact ⟨[], by simp [hw]⟩
  · obtain ⟨_, _, hw, _⟩ := crcMicro_frame h
    exact ⟨[], by simp [hw]⟩

/-- Settles O36: the environment's move appends, and the command, host action or row after it takes at
most one byte from the head. -/
theorem receiveStreamIsAQueue : Obligations.ReceiveStreamIsAQueue := by
  intro s t h
  obtain ⟨⟨arrived, harr⟩, _⟩ := move_adds s.world
  suffices hq : ∃ taken, s.world.move.rxq = taken ++ t.world.rxq ∧ taken.length ≤ 1 ∧
      (taken ≠ [] → s.lr.phase = .recv ∨ ∃ rest, hostDue s = some (.takeByte, rest)) by
    obtain ⟨taken, hrx, htaken⟩ := hq
    exact ⟨taken, arrived, harr, harr ▸ hrx, htaken⟩
  rcases step_cases h with ⟨_, _, h⟩ | ⟨_, _, rest, hd, h⟩ | ⟨_, _, _, h⟩ | ⟨_, _, _, rfl⟩
  · exact ⟨[], by simp [exec_world h]⟩
  · obtain ⟨taken, hrx, hlen, ha⟩ := hostAct_rxq h
    exact ⟨taken, hrx, hlen, fun hne => .inr ⟨rest, ha hne ▸ hd⟩⟩
  · obtain ⟨taken, hrx, hlen, hphase⟩ := unitMicro_rxq h
    exact ⟨taken, hrx, hlen, fun hne => .inl (hphase hne)⟩
  · exact ⟨[], by simp⟩

/-- Settles O37: the environment, the commands and the rows of the units leave the transmit stream alone,
and a host action adds to it only when it is a write. -/
theorem onlyTheHostTransmits : Obligations.OnlyTheHostTransmits := by
  intro s t h
  rw [← move_txq s.world]
  rcases step_cases h with ⟨_, _, h⟩ | ⟨_, a, rest, hd, h⟩ | ⟨_, _, _, h⟩ | ⟨_, _, _, rfl⟩
  · exact .inl (congrArg World.txq (exec_world h))
  · rcases hostAct_txq h with htx | ⟨bs, ha, htx⟩
    · exact .inl htx
    · refine .inr ⟨a, rest, bs, hd, ha.imp_right fun ⟨hframe, hbs⟩ => ⟨hframe, fun hp => ?_,
        fun hp => ?_⟩, htx⟩
      · exact hbs.trans (visibleFrame_idle hp)
      · exact hbs ▸ visibleFrame_length hp
  · exact .inl (unitMicro_rowFrame h).txq
  · exact .inl rfl

/-- Settles O38: of the parts of a step only the environment's move touches the clock. -/
theorem clockNeverRunsBack : Obligations.ClockNeverRunsBack := by
  intro s t h
  have hclock : t.world.clock = s.world.move.clock := by
    rcases step_cases h with ⟨_, _, h⟩ | ⟨_, _, _, _, h⟩ | ⟨_, _, _, h⟩ | ⟨_, _, _, rfl⟩
    · exact congrArg World.clock (exec_world h)
    · exact hostAct_clock h
    · exact (unitMicro_rowFrame h).clock
    · rfl
  obtain ⟨_, hle, _⟩ := move_adds s.world
  exact ⟨hclock ▸ hle, hclock⟩

/-- Settles O32: a clock sample is taken modulo 2^32, and so is the difference of two. -/
theorem elapsedSurvivesAClockWrap : Obligations.ElapsedSurvivesAClockWrap := by
  intro w d hd
  have hdiff : elapsed (clockNow { w with clock := w.clock + d }) (clockNow w) = BitVec.ofNat 32 d := by
    rw [elapsed, clockNow, clockNow, BitVec.ofNat_add, add_sub_cancel_left]
  rw [hdiff, BitVec.toNat_ofNat, Nat.mod_eq_of_lt hd]

/-! ### The operand while an operation runs (R51, R66) -/

/-- While `BUSY` = 1 no host action but a reset touches `IBUF` or the latched operand. -/
theorem hostAct_keeps_operand {a : HostAction} {s t : State} (h : hostAct a s = .next t)
    (hb : s.io.busy = true) (ha : a ≠ .reset) : t.io.ibuf = s.io.ibuf ∧ t.io.arg = s.io.arg := by
  rcases hostAct_cases h with ⟨_, _, _, hidle, _⟩ | ⟨_, _, rfl⟩ | ⟨_, rfl⟩ | ⟨_, _, rfl⟩ |
    ⟨_, _, _, _, _, rfl⟩ | ⟨hr, _⟩
  case inl => simp [hb] at hidle
  case inr.inr.inr.inr.inr => exact absurd hr ha
  all_goals exact ⟨rfl, rfl⟩

/-- Settles O35: a command accepted while `BUSY` = 1 is IDLE, a host write of `IBUF` is refused then, and
no row of a unit writes either. -/
theorem operandStandsWhileBusy : Obligations.OperandStandsWhileBusy := by
  intro s t hb h hr
  rcases step_cases h with ⟨_, _, h⟩ | ⟨_, _, rest, hd, h⟩ | ⟨_, _, _, h⟩ | ⟨_, _, _, rfl⟩
  · rcases exec_io h with hio | ⟨_, _, hidle, _⟩
    · simp [hio]
    · simp [hb] at hidle
  · obtain ⟨hibuf, harg⟩ := hostAct_keeps_operand h hb fun ha => hr rest (ha ▸ hd)
    exact ⟨hibuf, harg⟩
  · exact ⟨(unitMicro_rowFrame h).ibuf, (unitMicro_rowFrame h).arg⟩
  · exact ⟨rfl, rfl⟩

/-! ### The fields of a Frame (R54, R133 to R137) -/

/-- Settles O51: each field by its lemma, the checksum's span being the header before it. -/
theorem theFrameHasItsFields : Obligations.TheFrameHasItsFields := by
  intro m hm
  obtain ⟨hcaret, hp⟩ := buildFrame_marker m
  obtain ⟨hhundreds, htens, hunits⟩ := buildFrame_digits m
  obtain ⟨hhigh, hlow, hterm⟩ := buildFrame_trailer m
  have hspan : (buildFrame m).take (5 + m.length) = frameHeader m := buildFrame_take_header m
  rw [hspan, show 6 + m.length = headerLen m.length + 1 by simp only [headerLen]; omega,
    show 7 + m.length = headerLen m.length + 2 by simp only [headerLen]; omega]
  refine ⟨hcaret, hp, hhundreds, htens, hunits, by omega, fun i hi => buildFrame_mnemonic m i hi,
    hhigh, hlow, hterm, fun i hi => read_isNone _ i ?_⟩
  rw [buildFrame_length]
  simp only [headerLen] at hi
  omega

/-! ### The host's calls of the transport (R58, R59, R61) -/

theorem hostTakeByte_takes {s : State} {b : Byte} {rest : List Byte} (h : s.world.rxq = b :: rest) :
    hostTakeByte s = handBack b.toNat { s with world := { s.world with rxq := rest } } := by
  simp [hostTakeByte, tRead, h]

theorem hostTakeByte_refuses {s : State} (h : s.world.rxq = []) :
    hostTakeByte s = .refused .nothingWaiting := by
  simp [hostTakeByte, tRead, h]

/-- `T.avail` as the number handed to the host. -/
theorem tAvail_toNat (w : World) : (tAvail w).toNat = if w.rxq = [] then 0 else 1 := by
  cases hrx : w.rxq <;> simp [tAvail, hrx]

/-- While READLINE does not run, the host's `T.avail` and `T.read` are answered (R218). -/
theorem hostAct_transport {s : State} (h : s.lr.phase = .idle) :
    hostAct .pollAvail s = handBack (tAvail s.world).toNat s ∧
    hostAct .takeByte s = hostTakeByte s := by
  have hm : ¬makingLine s = true := by simpa using h
  exact ⟨if_neg hm, if_neg hm⟩

/-- Settles O57: what the calls hand back is `tAvail` and the head of the stream. -/
theorem hostCallsOfTheTransport : Obligations.HostCallsOfTheTransport := by
  intro s
  refine ⟨fun hl => ?_, fun b rest hl hrx => ?_, fun hl hrx => ?_, fun _ => rfl⟩
  · rw [(hostAct_transport hl).1, tAvail_toNat]
    rfl
  · rw [(hostAct_transport hl).2, hostTakeByte_takes hrx]
    rfl
  · rw [(hostAct_transport hl).2, hostTakeByte_refuses hrx]

end Sys2Proof.Machine

/-! ## 30_encoding.md: command words, refusals, and the lines of a program

A command word is its two fields, `OP` above `ARG`; decoding keeps both, and the five bytes of a word are
its number. The statements about refusals and about lines go through one equation a case. -/

namespace Sys2Proof.Machine

/-! ### Command words and their bytes (R80, R81, R82) -/

/-- Decoding keeps both fields: the last branch is the one value of `OP` that is left (R83). -/
theorem decodeWord_fields (w : CmdWord) :
    (decodeWord w).op = opField w ∧ (decodeWord w).arg = argField w := by
  unfold decodeWord
  split_ifs with h0 h1 h2
  · exact ⟨h0.symm, rfl⟩
  · exact ⟨h1.symm, rfl⟩
  · exact ⟨h2.symm, rfl⟩
  · refine ⟨?_, rfl⟩
    show 0b11#2 = opField w
    bv_omega

theorem encode_decodeWord (w : CmdWord) : encode (decodeWord w) = w := by
  obtain ⟨hop, harg⟩ := decodeWord_fields w
  rw [encode, hop, harg, append_fields]

/-- Settles O1: on words field by field, on bytes because five bytes hold every 34-bit number. -/
theorem commandWordsRoundTrip : Obligations.CommandWordsRoundTrip :=
  ⟨decodeWord_encode, encode_decodeWord, decodeBytes_encodeBytes⟩

/-- What the byte decoder accepts: five bytes whose number has 34 bits. -/
theorem decodeBytes_eq_ok {bs : List Byte} {i : Instr} (h : decodeBytes bs = .ok i) :
    bs.length = commandBytes ∧ numberOfBytes bs < 2 ^ 34 ∧
      i = decodeWord (BitVec.ofNat 34 (numberOfBytes bs)) := by
  unfold decodeBytes at h
  split at h
  next hlen =>
    split at h
    next hlt => exact ⟨hlen, hlt, (Except.ok.inj h).symm⟩
    next => cases h
  next => cases h

/-- Settles O2: accepted bytes are the five bytes of their own number, which is that of the command's
word. -/
theorem decoderAcceptsExactlyTheEncodings : Obligations.DecoderAcceptsExactlyTheEncodings := by
  intro bs i
  constructor
  · intro h
    obtain ⟨hlen, hlt, rfl⟩ := decodeBytes_eq_ok h
    rw [encodeBytes, encode_decodeWord, BitVec.toNat_ofNat, Nat.mod_eq_of_lt hlt, ← hlen,
      bytesOfNumber_numberOfBytes]
  · rintro rfl
    exact decodeBytes_encodeBytes i

/-- Each row of the operation map stands for one value of `OP`, that of its match: its mask is the field,
the rest of its match is 0, and its mnemonic is that of the commands with this value. -/
theorem opcodeTable_row {r : OpcodeRow} (hr : r ∈ opcodeTable) :
    r.mask = 0x300000000#34 ∧ r.bits = opField r.bits ++ 0#32 ∧
      ∀ i : Instr, r.mnemonic = i.mnemonic ↔ i.op = opField r.bits := by
  simp only [opcodeTable, List.mem_cons, List.not_mem_nil, or_false] at hr
  rcases hr with rfl | rfl | rfl | rfl
  all_goals
    refine ⟨rfl, rfl, fun i => ?_⟩
    cases i <;> simp [Instr.mnemonic, Instr.op, opField]

/-- A word falls under a row exactly when its `OP` is that of the row's match. -/
theorem covers_iff {r : OpcodeRow} (hr : r ∈ opcodeTable) (w : CmdWord) :
    r.covers w = true ↔ opField w = opField r.bits := by
  obtain ⟨hmask, hbits, _⟩ := opcodeTable_row hr
  rw [OpcodeRow.covers, beq_iff_eq, hmask, opMask_and]
  constructor
  · intro h
    rw [← h, opField_append]
  · intro h
    rw [h, ← hbits]

/-- Settles O3: both sides say that the word's `OP` is that of the row's match. -/
theorem everyWordFallsUnderItsOneOpcodeRow : Obligations.EveryWordFallsUnderItsOneOpcodeRow := by
  intro w r hr
  obtain ⟨_, _, hname⟩ := opcodeTable_row hr
  rw [covers_iff hr, hname, (decodeWord_fields w).1]

/-- Settles O4: five words, each decoded by computation. -/
theorem writtenOutWordsDecode : Obligations.WrittenOutWordsDecode := by
  unfold Obligations.WrittenOutWordsDecode
  decide

/-- Settles O7: `execIdle` answers the state it is given. -/
theorem idleChangesNothing : Obligations.IdleChangesNothing :=
  ⟨fun _ _ => rfl, rfl⟩

/-! ### Which commands are refused (R83, R132, R203) -/

theorem exceedsIbufCap_false {n : Nat} {p : Params} :
    exceedsIbufCap n p = false ↔ ∀ c, p.ibufCap = some c → n ≤ c := by
  cases h : p.ibufCap <;> simp [exceedsIbufCap, h]

/-- The operand is held: enough bytes written since the last command, none of them missing, and within
`IBUF_CAP`. -/
theorem operandHeld_iff {n : Nat} {s : State} : operandMissing n s = false ↔
    n ≤ s.io.ibufWritten.length ∧ n ≤ (Memory.leading s.io.ibuf).length ∧
      ∀ c, s.params.ibufCap = some c → n ≤ c := by
  rw [operandMissing_false, exceedsIbufCap_false]

theorem operandMissing_iff {n : Nat} {s : State} : operandMissing n s = true ↔
    s.io.ibufWritten.length < n ∨ (Memory.leading s.io.ibuf).length < n ∨
      ∃ c, s.params.ibufCap = some c ∧ c < n := by
  rw [← Bool.not_eq_false, operandHeld_iff]
  simp only [not_and_or, not_le, not_forall, exists_prop]

/-- `Busy` comes first (log 9). -/
theorem exec_busy {s : State} (hb : s.io.busy = true) (n : Arg) :
    exec (.crc16 n) s = .refused .busy ∧ exec (.build n) s = .refused .busy ∧
      exec (.readline n) s = .refused .busy :=
  ⟨if_pos hb, if_pos hb, if_pos hb⟩

/-- With `BUSY` = 0, `LenOverflow` comes before `OperandMissing` (log 9). -/
theorem exec_build_lenOverflow {s : State} {n : Arg} (hb : s.io.busy = false)
    (hn : 996 < n.toNat) : exec (.build n) s = .refused .lenOverflow := by
  have hmax : maxMnemonic < n.toNat := hn
  simp [exec, execBuild, hb, hmax]

theorem exec_crc16_operandMissing {s : State} {n : Arg} (hb : s.io.busy = false)
    (ho : operandMissing n.toNat s = true) : exec (.crc16 n) s = .refused .operandMissing := by
  simp [exec, execCrc16, hb, ho]

theorem exec_build_operandMissing {s : State} {n : Arg} (hb : s.io.busy = false)
    (hn : n.toNat ≤ 996) (ho : operandMissing n.toNat s = true) :
    exec (.build n) s = .refused .operandMissing := by
  have hmax : ¬maxMnemonic < n.toNat := not_lt.mpr hn
  simp [exec, execBuild, hb, hmax, ho]

theorem exec_crc16_next_iff {n : Arg} {s : State} : (∃ t, exec (.crc16 n) s = .next t) ↔
    s.io.busy = false ∧ operandMissing n.toNat s = false := by
  constructor
  · rintro ⟨t, h⟩
    rcases exec_cases h with ⟨_, hi, _⟩ | ⟨hb, ⟨_, hi, ho, _⟩ | ⟨_, hi, _⟩ | ⟨_, hi, _⟩⟩ <;> cases hi
    exact ⟨hb, ho⟩
  · rintro ⟨hb, ho⟩
    exact ⟨acceptCrc16 n s, by simp [exec, execCrc16, hb, ho]⟩

theorem exec_build_next_iff {n : Arg} {s : State} : (∃ t, exec (.build n) s = .next t) ↔
    s.io.busy = false ∧ n.toNat ≤ 996 ∧ operandMissing n.toNat s = false := by
  constructor
  · rintro ⟨t, h⟩
    rcases exec_cases h with ⟨_, hi, _⟩ | ⟨hb, ⟨_, hi, _⟩ | ⟨_, hi, hn, ho, _⟩ | ⟨_, hi, _⟩⟩ <;>
      cases hi
    exact ⟨hb, hn, ho⟩
  · rintro ⟨hb, hn, ho⟩
    have hmax : ¬maxMnemonic < n.toNat := not_lt.mpr hn
    exact ⟨acceptBuild n s, by simp [exec, execBuild, hb, hmax, ho]⟩

theorem exec_readline_next_iff {n : Arg} {s : State} :
    (∃ t, exec (.readline n) s = .next t) ↔ s.io.busy = false := by
  constructor
  · rintro ⟨t, h⟩
    rcases exec_cases h with ⟨_, hi, _⟩ | ⟨hb, _⟩
    · cases hi
    · exact hb
  · intro hb
    exact ⟨acceptReadline n s, by simp [exec, execReadline, hb]⟩

/-- No command is a fault (R200). -/
theorem exec_next_or_refused (i : Instr) (s : State) :
    (∃ t, exec i s = .next t) ∨ ∃ r, exec i s = .refused r := by
  cases h : exec i s with
  | next t => exact .inl ⟨t, rfl⟩
  | fault f => exact absurd h (exec_ne_fault i s f)
  | refused r => exact .inr ⟨r, rfl⟩

/-- Settles O9: one lemma for each command's acceptance and for each name, `operandMissing` read as the
operand's three bounds. -/
theorem commandsAreRefusedExactlyWhereTheSpecSays :
    Obligations.CommandsAreRefusedExactlyWhereTheSpecSays := by
  refine ⟨exec_next_or_refused, fun _ s => ⟨s, rfl⟩, fun n s => ?_, fun n s => ?_,
    fun _ _ => exec_readline_next_iff, fun n s hb => ?_, fun n s hb hmissing => ?_,
    fun _ _ hb hn _ _ _ => exec_build_lenOverflow hb hn⟩
  · rw [exec_crc16_next_iff, operandHeld_iff]
  · rw [exec_build_next_iff, operandHeld_iff]
  · obtain ⟨hcrc, hbuild, hread⟩ := exec_busy hb n
    exact ⟨hread, fun _ _ _ => ⟨hcrc, fun _ => hbuild⟩⟩
  · have ho := operandMissing_iff.mpr hmissing
    exact ⟨exec_crc16_operandMissing hb ho, fun hn => exec_build_operandMissing hb hn ho⟩

/-- Settles O54: the guards of `execBuild` in their order. -/
theorem theFirstReasonIsNamed : Obligations.TheFirstReasonIsNamed :=
  ⟨fun n _ hb => exec_busy hb n, fun _ _ hb hn => exec_build_lenOverflow hb hn⟩

/-! ### Lines and the host's cycle (R91, R92, R219) -/

/-- A command word as a number: `OP` times 2^32 and `ARG` (R80). -/
theorem encode_eq_ofNat (i : Instr) :
    encode i = BitVec.ofNat 34 (2 ^ 32 * i.op.toNat + i.arg.toNat) := by
  rw [encode, ← append_toNat, BitVec.ofNat_toNat, BitVec.setWidth_eq]

/-- The word of a line with a byte operand: its `ARG` is the number of bytes, which 32 bits hold
(log 29). -/
theorem encode_length {bytes : List Byte} (h : bytes.length < 2 ^ 32) {i : Instr}
    (harg : i.arg = BitVec.ofNat 32 bytes.length) :
    encode i = BitVec.ofNat 34 (2 ^ 32 * i.op.toNat + bytes.length) := by
  rw [encode_eq_ofNat, harg, BitVec.toNat_ofNat, Nat.mod_eq_of_lt h]

theorem crc16_moves {bytes : List Byte} (h : bytes.length < 2 ^ 32) :
    Line.moves (.crc16 bytes) = [blocking (.writeIbuf 0 bytes),
      blocking (.writeCmd (BitVec.ofNat 34 (0x100000000 + bytes.length)))] := by
  rw [Line.moves, issueWith, encode_length h rfl]
  rfl

theorem build_moves {bytes : List Byte} (h : bytes.length < 2 ^ 32) :
    Line.moves (.build bytes) = [blocking (.writeIbuf 0 bytes),
      blocking (.writeCmd (BitVec.ofNat 34 (0x200000000 + bytes.length)))] := by
  rw [Line.moves, issueWith, encode_length h rfl]
  rfl

theorem readline_moves (t : Arg) : Line.moves (.readline t) =
    [blocking (.writeCmd (BitVec.ofNat 34 (0x300000000 + t.toNat)))] := by
  rw [Line.moves, encode_eq_ofNat]
  rfl

/-- `EXCHANGE` is BUILD, the host's write of the Frame, READLINE (R92). -/
theorem exchange_moves (bytes : List Byte) (t : Arg) : Line.moves (.exchange bytes t) =
    Line.moves (.build bytes) ++ [blocking .transmitFrame] ++ Line.moves (.readline t) := by
  simp [Line.moves]

/-- While no BUILD runs the host's write of the Frame hands on `FBUF` (R59, R92). -/
theorem hostAct_transmitFrame {s : State} (h : s.fb.phase = .idle) : hostAct .transmitFrame s =
    .next { s with world := { s.world with txq := s.world.txq ++ s.fb.fbuf } } := by
  rw [hostAct, visibleFrame_idle h, tWrite]

theorem hostCycle_legal {p : HostParams} (h : p.tMode.toNat < p.tStatus.toNat) : hostCycle p =
    some [.exchange mnemonicMod p.tMode, .exchange p.statusMnemonic p.tStatus] := by
  simp [hostCycle, HostParams.legal, h]

theorem hostCycle_illegal {p : HostParams} (h : p.tStatus.toNat ≤ p.tMode.toNat) :
    hostCycle p = none := by
  simp [hostCycle, HostParams.legal, h]

/-- A program of two lines is the moves of the one and then of the other. -/
theorem programMoves_pair (l₁ l₂ : Line) :
    programMoves [l₁, l₂] = Line.moves l₁ ++ Line.moves l₂ := by
  simp [programMoves]

/-- Settles O44: the moves of each line, the write of the Frame, and the cycle's two exchanges. -/
theorem exchangeIsBuildWriteReadline : Obligations.ExchangeIsBuildWriteReadline := by
  refine ⟨fun _ h => ⟨crc16_moves h, build_moves h⟩, readline_moves, rfl, exchange_moves,
    fun _ h => hostAct_transmitFrame h, fun p => ⟨fun h => ?_, hostCycle_illegal⟩⟩
  exact ⟨_, hostCycle_legal h, programMoves_pair _ _⟩

end Sys2Proof.Machine

/-! ## 40_crc_engine.md: the checksum, the rows of the engine and its runs

The statements about the function are inductions over the span or over the eight steps of a byte. A run of
CRC16 or BUILD is the chain of the runs of `Laws/Runs.lean`, from acceptance to the row that ends the
operation. -/

namespace Sys2Proof.Machine

/-! ### The checksum as a function (R112, R115, R118, R119) -/

/-- Linearity of the loop over spans of equal length, from any two register values (R119). -/
theorem crcFrom_xor {a b : List Byte} (h : a.length = b.length) (c d : CrcWord) :
    crcFrom (c ^^^ d) (List.zipWith (· ^^^ ·) a b) = crcFrom c a ^^^ crcFrom d b := by
  induction a generalizing b c d with
  | nil =>
    obtain rfl := List.length_eq_zero_iff.mp h.symm
    rfl
  | cons x xs ih =>
    cases b with
    | nil => cases h
    | cons y ys =>
      rw [List.zipWith_cons_cons, crcFrom_cons, crcByte_xor, ih (Nat.succ.inj h), crcFrom_cons,
        crcFrom_cons]

/-- Settles O12: `CRC_INIT` is 0, the exclusive-or of itself with itself. -/
theorem crcIsLinear : Obligations.CrcIsLinear := fun _ _ h => crcFrom_xor h crcInit crcInit

/-- The high byte of the register cancels when it is loaded; the low byte is left. -/
theorem loadByte_crcHigh (c : CrcWord) : loadByte c (crcHigh c) = (crcLow c).setWidth 16 := by
  refine BitVec.eq_of_getLsbD_eq fun i hi => ?_
  by_cases h8 : i < 8
  · simp [loadByte, highByte, crcLow, h8, hi]
  · simp [loadByte, highByte, crcHigh, crcLow, h8, hi, show i - 8 < 8 by omega,
      show 8 + (i - 8) = i by omega]

/-- After the register's own high byte its low byte stands in bits 15:8: no shift meets a set bit 15. -/
theorem crcByte_crcHigh (c : CrcWord) : crcByte c (crcHigh c) = highByte (crcLow c) := by
  have hlow : ((crcLow c).setWidth 16).toNat = (crcLow c).toNat :=
    BitVec.toNat_setWidth_of_le (by decide)
  apply BitVec.eq_of_toNat_eq
  rw [crcByte, loadByte_crcHigh, crcSteps,
    shiftSteps_small 8 _ (hlow ▸ (crcLow c).isLt) (by decide), hlow]
  exact (highByte_toNat _).symm

/-- A byte that stands in bits 15:8 of a register with bits 7:0 zero cancels when it is loaded. -/
theorem crcByte_highByte (b : Byte) : crcByte (highByte b) b = 0#16 := by
  rw [crcByte, loadByte, BitVec.xor_self, shiftSteps_zero]

/-- Settles O13: the high byte leaves the low one in bits 15:8, and the low one cancels that. -/
theorem crcOfASpanWithItsCrcIsZero : Obligations.CrcOfASpanWithItsCrcIsZero := by
  intro m
  rw [crc16, crcFrom_append, ← crc16, crcFrom_cons, crcFrom_cons, crcFrom_nil, crcByte_crcHigh,
    crcByte_highByte]

/-- The register after the first `k` bits of a byte in the bit-serial form, bit 7 first (R118). -/
def serialBits (b : Byte) (k : Nat) (c : CrcWord) : CrcWord :=
  (List.range k).foldl (fun c j => serialBit c (b.getLsbD (7 - j))) c

theorem serialBits_succ (b : Byte) (k : Nat) (c : CrcWord) :
    serialBits b (k + 1) c = serialBit (serialBits b k c) (b.getLsbD (7 - k)) := by
  simp [serialBits, List.range_succ]

theorem serialByte_eq_serialBits (c : CrcWord) (b : Byte) : serialByte c b = serialBits b 8 c := rfl

/-- After `k` steps of a byte the byte-wise register is the serial one with the byte's other bits, not yet
shifted in, above it. -/
theorem shiftSteps_loadByte (c : CrcWord) (b : Byte) {k : Nat} (hk : k ≤ 8) :
    shiftSteps k (loadByte c b) = serialBits b k c ^^^ highByte (b <<< k) := by
  induction k with
  | zero => simp [shiftSteps, serialBits, loadByte]
  | succ k ih =>
    have hbit : (b <<< k).getLsbD 7 = b.getLsbD (7 - k) := by
      have hle : ¬7 < k := by omega
      rw [BitVec.getLsbD_shiftLeft, decide_eq_false hle]
      rfl
    rw [shiftSteps_succ, ih (by omega), shiftStep_pending, hbit, ← serialBits_succ,
      BitVec.shiftLeft_add]

theorem serialByte_eq_crcByte (c : CrcWord) (b : Byte) : serialByte c b = crcByte c b := by
  have hout : b <<< 8 = 0#8 := BitVec.shiftLeft_eq_zero (le_refl 8)
  rw [serialByte_eq_serialBits, crcByte, crcSteps, shiftSteps_loadByte c b (le_refl 8), hout]
  exact (BitVec.xor_zero ..).symm

/-- Settles O14: after eight steps no bit of the byte is left above the register; a span is the loop over
its bytes in both forms. -/
theorem bitSerialFormAgrees : Obligations.BitSerialFormAgrees := by
  refine ⟨serialByte_eq_crcByte, fun data => ?_⟩
  have hstep : serialByte = crcByte := funext₂ serialByte_eq_crcByte
  rw [serialCrc16, hstep, crc16, crcFrom]

/-- A zero byte leaves the start value as it is, and so do any number of them (R115). -/
theorem crcFrom_zeros (k : Nat) : crcFrom crcInit (List.replicate k 0#8) = crcInit := by
  induction k with
  | zero => rfl
  | succ k ih => rw [List.replicate_succ, crcFrom_cons, crcInit, crcByte_zero, ← crcInit, ih]

/-- Settles O15: zero bytes by streaming, the single bytes by computation. -/
theorem crcCornerCases : Obligations.CrcCornerCases := by
  refine ⟨rfl, fun k m => ?_, by decide, by decide, by decide⟩
  rw [crc16, crcFrom_append, crcFrom_zeros, ← crc16]

/-! ### The rows of the engine (R112, R113, R116) -/

/-- `zext_16(b) * 256` as the model writes it (R112). -/
theorem highByte_eq_mul (b : Byte) : highByte b = b.setWidth 16 * 256#16 := by
  apply BitVec.eq_of_toNat_eq
  have hb := b.isLt
  rw [highByte_toNat, BitVec.toNat_mul, BitVec.toNat_setWidth, BitVec.toNat_ofNat]
  omega

theorem exec_crc16_accepts {n : Arg} {s : State} (hb : s.io.busy = false)
    (ho : operandMissing n.toNat s = false) : exec (.crc16 n) s = .next (acceptCrc16 n s) := by
  simp [exec, execCrc16, hb, ho]

theorem exec_build_accepts {n : Arg} {s : State} (hb : s.io.busy = false) (hn : n.toNat ≤ 996)
    (ho : operandMissing n.toNat s = false) : exec (.build n) s = .next (acceptBuild n s) := by
  have hmax : ¬maxMnemonic < n.toNat := not_lt.mpr hn
  simp [exec, execBuild, hb, hmax, ho]

/-- The Frame Builder's entry. -/
theorem crcMicro_idle {s : State} (hp : s.ce.phase = .idle) (hf : s.fb.phase = .crcRun) :
    crcMicro s = .next { s with ce := crcStart s.ce } := by
  simp [crcMicro, hp, hf]

theorem crcMicro_load {s : State} (hp : s.ce.phase = .load) (hi : s.ce.idx < engineLen s) {b : Byte}
    (hb : Buffer.read (engineBuffer s) s.ce.idx = some b) :
    crcMicro s = .next { s with ce := crcLoad b s.ce } := by
  simp [crcMicro, hp, hi, hb]

theorem crcMicro_load_end {s : State} (hp : s.ce.phase = .load) (hi : engineLen s ≤ s.ce.idx) :
    crcMicro s = .next { s with ce := { s.ce with phase := .done } } := by
  simp [crcMicro, hp, not_lt.mpr hi]

theorem crcMicro_shift {s : State} (hp : s.ce.phase = .shift) (hk : s.ce.bitcnt < crcSteps) :
    crcMicro s = .next { s with ce := crcShift s.ce } := by
  simp [crcMicro, hp, hk]

theorem crcMicro_shift_end {s : State} (hp : s.ce.phase = .shift) (hk : crcSteps ≤ s.ce.bitcnt) :
    crcMicro s = .next { s with ce := crcNextByte s.ce } := by
  simp [crcMicro, hp, not_lt.mpr hk]

/-- A stand-alone CRC16 ends. -/
theorem crcMicro_done {s : State} (hp : s.ce.phase = .done) (hf : s.fb.phase ≠ .crcRun) :
    crcMicro s = .next { s with ce := { s.ce with phase := .idle }, io := finishOp s.io } := by
  simp [crcMicro, hp, hf]

/-- The engine returns to the Frame Builder. -/
theorem crcMicro_done_build {s : State} (hp : s.ce.phase = .done) (hf : s.fb.phase = .crcRun) :
    crcMicro s = .next
      { s with ce := { s.ce with phase := .idle }, fb := { s.fb with phase := .crcHi } } := by
  simp [crcMicro, hp, hf]

/-- Settles O11: each clause is the environment's move and one row of `crcMicro`. -/
theorem crcEngineRows : Obligations.CrcEngineRows := by
  refine ⟨fun n s hb ho => exec_crc16_accepts hb ho, fun s hu hb hl => ?_⟩
  have hrow (hf : s.fb.phase = .idle ∨ s.fb.phase = .crcRun) : step s = crcMicro (envMove s) :=
    step_engine ⟨hu, hb, hl, hf⟩
  refine ⟨fun hf hp => ?_, fun hf => ⟨fun b hp hi hread => ?_, fun hp hi => ?_, fun hp hk => ?_,
    fun hp hk => ?_⟩, fun hf hp => ?_, fun hf hp => ?_⟩
  · exact (hrow (.inr hf)).trans (crcMicro_idle hp hf)
  · rw [← highByte_eq_mul]
    exact (hrow hf).trans (crcMicro_load (s := envMove s) hp hi hread)
  · exact (hrow hf).trans (crcMicro_load_end hp hi.ge)
  · exact (hrow hf).trans (crcMicro_shift hp hk)
  · exact (hrow hf).trans (crcMicro_shift_end hp hk.ge)
  · have hne : s.fb.phase ≠ .crcRun := by simp [hf]
    exact (hrow (.inl hf)).trans (crcMicro_done hp hne)
  · exact (hrow (.inr hf)).trans (crcMicro_done_build hp hf)

/-! ### The run of CRC16 (R110, R111, R114, R117) -/

/-- Settles O10: acceptance, the engine's run over `IBUF[0..n)`, and the row that ends the operation. -/
theorem crc16RunsToTheChecksum : Obligations.Crc16RunsToTheChecksum := by
  intro n s h hb hu ho
  obtain ⟨_, hfb, hlr⟩ := h.units.quiet hb
  obtain ⟨_, hheld, _⟩ := operandMissing_false.mp ho
  have ha : EngineActive (acceptCrc16 n s) := ⟨hu, rfl, hlr, .inl hfb⟩
  have hlen : engineLen (acceptCrc16 n s) = n.toNat := by simp [engineLen, hfb, operandLen]
  have hbuf : engineBuffer (acceptCrc16 n s) = Memory.leading s.io.ibuf := by
    simp [engineBuffer, hfb]
  have hrun := engine_span ha rfl n.toNat (by simp [hlen]) (by rwa [hlen, hbuf])
  refine ⟨acceptCrc16 n s, exec_crc16_accepts hb ho, runFor_snoc hrun ?_⟩
  rw [step_engine (ha.withCe _ _), crcMicro_done rfl (by simp [hfb])]
  simp [engineSpan, hlen, hbuf, Buffer.span, crc16, finishOp, beginOp, crcSteps, moves_move]

/-! ### The run of BUILD (R136, R140) -/

/-- Two runs in a row. -/
theorem runFor_append {s t u : State} {j k : Nat} (hj : runFor j s = .next t)
    (hk : runFor k t = .next u) : runFor (j + k) s = .next u := by
  rw [runFor_trans k hj, hk]

/-- From LENCALC to `CRCRUN`: the length, the marker, the digits and the mnemonic. -/
theorem builder_header {s : State} (h : BuilderActive s) (hp : s.fb.phase = .lenCalc)
    (hb : s.fb.fbuf = []) (hl : operandLen s ≤ (Memory.leading s.io.ibuf).length) :
    runFor (operandLen s + 7) s = .next
      { s with
        fb := { phase := .crcRun, len := lengthField (operandLen s), idx := operandLen s,
                fbuf := frameHeader (operand s) },
        world := s.world.moves (operandLen s + 7) } := by
  have hlen : (operand s).length = operandLen s := List.length_take_of_le hl
  have hrun := runFor_append (builder_head h hp hb)
    (builder_mnemonic (h.withFb _ _) rfl (operandLen s) (Nat.zero_add _) hl)
  rw [show operandLen s + 7 = 6 + (operandLen s + 1) by omega, frameHeader, hlen,
    ← moves_moves]
  exact hrun

/-- From `CRCHI` to the end: the CRC field, the terminator and the row `DONE`. -/
theorem builder_trailer {s : State} (h : BuilderActive s) (hp : s.fb.phase = .crcHi) :
    runFor 4 s = .next
      { s with
        io := finishOp s.io,
        fb := { s.fb with phase := .idle,
                          fbuf := s.fb.fbuf ++ [crcHigh s.ce.crc, crcLow s.ce.crc, terminator] },
        world := s.world.moves 4 } := by
  have hs (fb : FbRegs) (w : World) (hne : fb.phase ≠ .idle) :
      step { s with fb := fb, world := w } = fbMicro { s with fb := fb, world := w.move } :=
    step_builder (h.withFb fb w) hne
  have h0 : step s = fbMicro { s with world := s.world.move } := step_builder h (by simp [hp])
  simp [runFor, h0, hs, fbMicro, hp, fbAppend, Buffer.append, World.moves]

/-- From acceptance BUILD runs through the header, its checksum and the trailer to the Frame of its
operand. -/
theorem acceptBuild_runs {n : Arg} {s : State} (h : MachineInv s) (hb : s.io.busy = false)
    (hu : undisturbed s = true) (ho : operandMissing n.toNat s = false) :
    runFor (11 * n.toNat + 64) (acceptBuild n s) = .next
      { s with
        io := { s.io with busy := false, done := true, arg := n, ibufWritten := [],
                          crcWritten := true },
        ce := { phase := .idle, crc := crc16 (frameHeader ((Memory.leading s.io.ibuf).take n.toNat)),
                idx := headerLen n.toNat, bitcnt := crcSteps },
        fb := { phase := .idle, len := lengthField n.toNat, idx := n.toNat,
                fbuf := buildFrame ((Memory.leading s.io.ibuf).take n.toNat) },
        world := s.world.moves (11 * n.toNat + 64) } := by
  obtain ⟨hce, _, hlr⟩ := h.units.quiet hb
  obtain ⟨_, hheld, _⟩ := operandMissing_false.mp ho
  have hlen : (frameHeader ((Memory.leading s.io.ibuf).take n.toNat)).length = headerLen n.toNat := by
    rw [frameHeader_length, List.length_take_of_le hheld]
  have hrun := runFor_append (builder_header (s := acceptBuild n s) ⟨hu, rfl, hlr⟩ rfl rfl hheld)
    (runFor_append (builder_crc ⟨hu, rfl, hlr⟩ rfl hce hlen) (builder_trailer ⟨hu, rfl, hlr⟩ rfl))
  have hsteps : 11 * n.toNat + 64 = n.toNat + 7 + (10 * headerLen n.toNat + 3 + 4) := by
    simp only [headerLen]
    omega
  have hoperand : operand (acceptBuild n s) = (Memory.leading s.io.ibuf).take n.toNat := rfl
  simp only [hoperand] at hrun
  rw [hsteps, ← moves_moves, ← moves_moves, buildFrame]
  exact hrun

/-! ### Nothing but the operand counts (R31, R111, R117, R138) -/

/-- Two spaces that hold the same first `n` bytes, none missing, are read alike up to there. -/
theorem leading_take_congr {m m' : List Host.Cell} {n : Nat} (hw : Memory.wf m = true)
    (hn : n ≤ (Memory.leading m').length)
    (h : ∀ i, i < n → Memory.read m i = Memory.read m' i) :
    (Memory.leading m).take n = (Memory.leading m').take n := by
  have hlen : ((Memory.leading m').take n).length = n := List.length_take_of_le hn
  have htake := leading_take (l := (Memory.leading m').take n) hw fun j hj => by
    rw [hlen] at hj
    rw [h j hj, read_leading j m' (by omega), Buffer.read, List.getElem?_take_of_lt hj]
  rwa [hlen] at htake

/-- Settles O40: both runs end in a state whose results are written as functions of `IBUF[0..n)`. -/
theorem operationsArePureFunctionsOfTheirOperand :
    Obligations.OperationsArePureFunctionsOfTheirOperand := by
  intro n s s' h h' hb hb' hu hu' ho ho' hread
  obtain ⟨_, hheld, _⟩ := operandMissing_false.mp ho'
  have hspan := leading_take_congr h.ranges.ibuf hheld hread
  obtain ⟨t, hacc, hrun⟩ := crc16RunsToTheChecksum n s h hb hu ho
  obtain ⟨t', hacc', hrun'⟩ := crc16RunsToTheChecksum n s' h' hb' hu' ho'
  refine ⟨⟨t, t', _, _, hacc, hacc', hrun, hrun', ?_⟩, fun hn => ?_⟩
  · rw [hspan]
  · refine ⟨_, _, _, _, exec_build_accepts hb hn ho, exec_build_accepts hb' hn ho',
      acceptBuild_runs h hb hu ho, acceptBuild_runs h' hb' hu' ho', ?_, ?_⟩
    · rw [hspan]
    · rw [hspan]

end Sys2Proof.Machine

/-! ## 41_frame_builder.md: BUILD, its rows and the Frame it leaves

A run of BUILD is `acceptBuild_runs`, whose end state names the Frame as a function of the operand; what
stands in `FBUF` then follows from the Frame's own lemmas in `Laws/Frame.lean`. -/

namespace Sys2Proof.Machine

/-! ### The length bound (R132, R83) -/

/-- A BUILD within the bound is refused for another reason, or accepted. -/
theorem exec_build_ne_lenOverflow {n : Arg} {s : State} (hn : n.toNat ≤ 996) :
    exec (.build n) s ≠ .refused .lenOverflow := by
  cases hb : s.io.busy
  · cases ho : operandMissing n.toNat s
    · simp [exec_build_accepts hb hn ho]
    · simp [exec_build_operandMissing hb hn ho]
  · simp [(exec_busy hb n).2.1]

/-- Settles O8: above the bound `Busy` or `LenOverflow`, the first guards of `execBuild`. -/
theorem buildAbove996IsRefused : Obligations.BuildAbove996IsRefused := by
  refine ⟨fun n s hn => ?_, fun _ _ hb hn => exec_build_lenOverflow hb hn,
    fun _ _ hn => exec_build_ne_lenOverflow hn⟩
  cases hb : s.io.busy
  · exact ⟨_, exec_build_lenOverflow hb hn⟩
  · obtain ⟨_, hbuild, _⟩ := exec_busy hb n
    exact ⟨_, hbuild⟩

/-! ### The Frame as a function (R138) -/

theorem buildFrame_take_five (m : List Byte) : (buildFrame m).take 5 =
    [markerCaret, markerP, digitHundreds (lengthField m.length), digitTens (lengthField m.length),
      digitUnits (lengthField m.length)] := rfl

/-- What stands before the terminator is the header and its checksum, high byte first. -/
theorem buildFrame_without_terminator (m : List Byte) : (buildFrame m).take (m.length + 7) =
    frameHeader m ++ [crcHigh (crc16 (frameHeader m)), crcLow (crc16 (frameHeader m))] := by
  have hlen : m.length + 7 = (frameHeader m).length + 2 := by
    simp only [frameHeader_length, headerLen]
    omega
  rw [hlen, buildFrame, List.take_length_add_append]
  rfl

theorem buildFrame_getLast (m : List Byte) : (buildFrame m).getLast? = some terminator := by
  simp [buildFrame]

/-- A decimal digit's character lies between `0` and `9`, and the digit is read back from it (R85). -/
theorem asciiDigit_decodes {d : Nat} (hd : d < 10) : 0x30 ≤ (asciiDigit d).toNat ∧
    (asciiDigit d).toNat ≤ 0x39 ∧ (asciiDigit d).toNat - 0x30 = d := by
  have h := asciiDigit_toNat d hd
  simp only [asciiZero] at h
  omega

/-- Two Frames that are equal have mnemonics of one length, which stand at the same place in them. -/
theorem buildFrame_injective : Function.Injective buildFrame := by
  intro m m' h
  have hlen : m.length = m'.length := by simpa using congrArg List.length h
  rw [← buildFrame_mnemonic_span m, ← buildFrame_mnemonic_span m', h, hlen]

/-- Settles O19: `L + 3` has three decimal digits, and the mnemonic stands between them and the trailer. -/
theorem frameReadsBack : Obligations.FrameReadsBack := by
  intro m hm
  have hlen := buildFrame_length m
  refine ⟨hlen, ⟨_, _, _, buildFrame_take_five m, ?_⟩, buildFrame_getLast m, ?_,
    fun m' _ h => buildFrame_injective h⟩
  · have hl : lengthField m.length = m.length + 3 := rfl
    obtain ⟨ha, ha', hda⟩ := asciiDigit_decodes (d := lengthField m.length / 100) (by omega)
    obtain ⟨hb, hb', hdb⟩ := asciiDigit_decodes (d := lengthField m.length / 10 % 10) (by omega)
    obtain ⟨hc, hc', hdc⟩ := asciiDigit_decodes (d := lengthField m.length % 10) (by omega)
    refine ⟨ha, ha', hb, hb', hc, hc', ?_, by omega⟩
    rw [digitHundreds, digitTens, digitUnits, hda, hdb, hdc]
    omega
  · rw [hlen, Nat.add_sub_cancel, buildFrame_mnemonic_span]

/-- Settles O20: a header followed by its own checksum. -/
theorem frameWithoutTerminatorHasZeroCrc : Obligations.FrameWithoutTerminatorHasZeroCrc := by
  intro m
  rw [buildFrame_without_terminator]
  exact crcOfASpanWithItsCrcIsZero (frameHeader m)

/-! ### The rows of the builder (R140) -/

theorem crcHigh_eq_ofNat (c : CrcWord) : crcHigh c = BitVec.ofNat 8 (c.toNat / 256) := by
  rw [← crcHigh_toNat, BitVec.ofNat_toNat, BitVec.setWidth_eq]

theorem crcLow_eq_ofNat (c : CrcWord) : crcLow c = BitVec.ofNat 8 (c.toNat % 256) := by
  rw [← crcLow_toNat, BitVec.ofNat_toNat, BitVec.setWidth_eq]

/-- The rows of R140 that append one byte: the byte and the phase that follows. -/
def appendRow (s : State) : FbPhase → Option (Byte × FbPhase)
  | .mark0 => some (markerCaret, .mark1)
  | .mark1 => some (markerP, .dig2)
  | .dig2 => some (digitHundreds s.fb.len, .dig1)
  | .dig1 => some (digitTens s.fb.len, .dig0)
  | .dig0 => some (digitUnits s.fb.len, .mnem)
  | .crcHi => some (crcHigh s.ce.crc, .crcLo)
  | .crcLo => some (crcLow s.ce.crc, .term)
  | .term => some (terminator, .done)
  | .idle | .lenCalc | .mnem | .crcRun | .done => none

/-- Every such row is one append with the next phase. -/
theorem fbMicro_append {s : State} {p q : FbPhase} {v : Byte} (hp : s.fb.phase = p)
    (hrow : appendRow s p = some (v, q)) :
    fbMicro s = .next { s with fb := fbAppend v q s.fb } := by
  cases p <;> cases hrow <;> simp [fbMicro, hp]

theorem fbMicro_lenCalc {s : State} (hp : s.fb.phase = .lenCalc) : fbMicro s = .next
    { s with fb := { s.fb with len := lengthField (operandLen s), idx := 0, phase := .mark0 } } := by
  simp [fbMicro, hp]

theorem fbMicro_mnem {s : State} (hp : s.fb.phase = .mnem) (hi : s.fb.idx < operandLen s) {b : Byte}
    (hb : Buffer.read (Memory.leading s.io.ibuf) s.fb.idx = some b) :
    fbMicro s = .next { s with fb := fbCopy b s.fb } := by
  simp [fbMicro, hp, hi, hb]

theorem fbMicro_mnem_end {s : State} (hp : s.fb.phase = .mnem) (hi : operandLen s ≤ s.fb.idx) :
    fbMicro s = .next { s with fb := { s.fb with phase := .crcRun } } := by
  simp [fbMicro, hp, not_lt.mpr hi]

/-- In `CRCRUN` the row is the engine's (R136). -/
theorem fbMicro_crcRun {s : State} (hp : s.fb.phase = .crcRun) : fbMicro s = crcMicro s := by
  simp [fbMicro, hp]

theorem fbMicro_done {s : State} (hp : s.fb.phase = .done) :
    fbMicro s = .next { s with fb := { s.fb with phase := .idle }, io := finishOp s.io } := by
  simp [fbMicro, hp]

/-- Settles O18: each clause is the environment's move and one row of `fbMicro`. -/
theorem frameBuilderRows : Obligations.FrameBuilderRows := by
  refine ⟨fun n s hb hn ho => exec_build_accepts hb hn ho, fun s hu hb hl => ?_⟩
  have hrow {p : FbPhase} (hp : s.fb.phase = p) (hne : p ≠ .idle) : step s = fbMicro (envMove s) :=
    step_builder ⟨hu, hb, hl⟩ (hp ▸ hne)
  have happend {p q : FbPhase} {v : Byte} (hp : s.fb.phase = p)
      (ha : appendRow s p = some (v, q)) (hne : p ≠ .idle) :
      step s = .next { s with fb := fbAppend v q s.fb, world := s.world.move } :=
    (hrow hp hne).trans (fbMicro_append (s := envMove s) hp ha)
  rw [← crcHigh_eq_ofNat, ← crcLow_eq_ofNat]
  refine ⟨fun hp => ?_, fun hp => happend hp rfl nofun, fun hp => happend hp rfl nofun,
    fun hp => happend hp rfl nofun, fun hp => happend hp rfl nofun, fun hp => happend hp rfl nofun,
    fun b hp hi hread => ?_, fun hp hi => ?_, fun hp => ?_, fun hp hc => ?_,
    fun hp => happend hp rfl nofun, fun hp => happend hp rfl nofun,
    fun hp => happend hp rfl nofun, fun hp => ?_⟩
  · exact (hrow hp nofun).trans (fbMicro_lenCalc hp)
  · exact (hrow hp nofun).trans (fbMicro_mnem (s := envMove s) hp hi hread)
  · exact (hrow hp nofun).trans (fbMicro_mnem_end hp hi.ge)
  · exact (hrow hp nofun).trans (fbMicro_crcRun hp)
  · exact ((hrow hp nofun).trans (fbMicro_crcRun hp)).trans (crcMicro_done_build hc hp)
  · exact (hrow hp nofun).trans (fbMicro_done hp)

/-! ### The run of BUILD (R130 to R137) -/

/-- Settles O16: acceptance and the run to the Frame. -/
theorem buildRunsToTheFrame : Obligations.BuildRunsToTheFrame :=
  fun n s h hb hu hn ho => ⟨acceptBuild n s, exec_build_accepts hb hn ho, acceptBuild_runs h hb hu ho⟩

/-- Settles O17: the fields of the Frame that the run leaves in `FBUF`, its mnemonic being `IBUF[0..L)`. -/
theorem buildWritesEveryFieldOfTheFrame : Obligations.BuildWritesEveryFieldOfTheFrame := by
  intro n s h hb hu hn ho
  obtain ⟨_, hheld, _⟩ := operandMissing_false.mp ho
  have hlen : ((Memory.leading s.io.ibuf).take n.toNat).length = n.toNat := List.length_take_of_le hheld
  obtain ⟨hcaret, hp, hhundreds, htens, hunits, _, hmnemonic, hhigh, hlow, hterm, _⟩ :=
    theFrameHasItsFields _ (hlen.trans_le hn)
  have hspan := buildFrame_take_header ((Memory.leading s.io.ibuf).take n.toNat)
  rw [headerLen, hlen] at hspan
  rw [hlen] at hhundreds htens hunits hmnemonic hhigh hlow hterm
  rw [hspan] at hhigh hlow
  refine ⟨_, _, exec_build_accepts hb hn ho, acceptBuild_runs h hb hu ho, rfl, rfl, rfl, ?_, hcaret, hp,
    hhundreds, htens, hunits, fun i hi => ?_, congrArg crc16 hspan.symm,
    hhigh.trans (congrArg some (crcHigh_eq_ofNat _)), hlow.trans (congrArg some (crcLow_eq_ofNat _)),
    hterm⟩
  · rw [frameLen, buildFrame_length, hlen]
  · rw [read_leading i _ (hi.trans_le hheld)]
    exact (hmnemonic i hi).trans (List.getElem?_take_of_lt hi)

end Sys2Proof.Machine

/-! ## 42_line_reader.md: READLINE, its rows and its runs

`ReaderRow` has one case for each edge of R157, with its condition and its whole next state. What ends a
line and the runs of READLINE are read off it; a run over scripted moves of the environment is an
induction on the script. -/

namespace Sys2Proof.Machine

/-! ### Time since the sample of START and since that of the backoff (R62, R151, R155) -/

/-- Milliseconds since the clock sample of START, as a sample taken now would count them (R156). -/
def sinceStart (s : State) : Nat := (elapsed (clockNow s.world) s.lr.tStart).toNat

/-- Milliseconds since the current backoff began, as a sample taken now would count them (R155). -/
def sinceBackoff (s : State) : Nat := (elapsed (clockNow s.world) s.lr.tBk).toNat

/-- A clock that advances by `d` adds `d` to an elapsed time, as long as the sum stays below 2^32. -/
theorem elapsed_advances {c d : Nat} {start : Ms}
    (h : (elapsed (BitVec.ofNat 32 c) start).toNat + d < 2 ^ 32) :
    (elapsed (BitVec.ofNat 32 (c + d)) start).toNat =
      (elapsed (BitVec.ofNat 32 c) start).toNat + d := by
  simp only [elapsed, BitVec.toNat_sub, BitVec.toNat_ofNat] at h ⊢
  omega

theorem timedOut_gt {e timeout : Ms} : timedOut .gt e timeout = true ↔ timeout.toNat < e.toNat := by
  simp [timedOut, withinBudget]

theorem timedOut_ge {e timeout : Ms} : timedOut .ge e timeout = true ↔ timeout.toNat ≤ e.toNat := by
  simp [timedOut, withinBudget]

theorem withinBudget_mono {cmp : TimeoutCmp} {d e timeout : Nat} (hd : d ≤ e)
    (h : withinBudget cmp e timeout = true) : withinBudget cmp d timeout = true := by
  cases cmp
  · exact decide_eq_true (hd.trans (of_decide_eq_true h))
  · exact decide_eq_true (hd.trans_lt (of_decide_eq_true h))

theorem le_of_withinBudget {cmp : TimeoutCmp} {e timeout : Nat}
    (h : withinBudget cmp e timeout = true) : e ≤ timeout := by
  cases cmp
  · exact of_decide_eq_true h
  · exact (of_decide_eq_true h).le

/-! ### The rows of the reader (R157) -/

theorem exec_readline_accepts {s : State} (hb : s.io.busy = false) (n : Arg) :
    exec (.readline n) s = .next (acceptReadline n s) := by
  simp [exec, execReadline, hb]

theorem acceptReadline_active {s : State} (hu : undisturbed s = true) (n : Arg) :
    ReaderActive (acceptReadline n s) := ⟨hu, rfl, nofun⟩

theorem lrMicro_start {s : State} (hp : s.lr.phase = .start) : lrMicro s = .next (lrStart s) := by
  simp [lrMicro, hp]

theorem lrMicro_check {s : State} (hp : s.lr.phase = .check) : lrMicro s = .next (lrCheck s) := by
  simp [lrMicro, hp]

theorem lrMicro_poll {s : State} (hp : s.lr.phase = .poll) : lrMicro s = lrPoll s := by
  simp [lrMicro, hp]

theorem lrMicro_recv {s : State} (hp : s.lr.phase = .recv) : lrMicro s = lrRecv s := by
  simp [lrMicro, hp]

theorem lrMicro_backoff {s : State} (hp : s.lr.phase = .backoff) :
    lrMicro s = .next (lrBackoff s) := by
  simp [lrMicro, hp]

theorem lrMicro_done {s : State} (hp : s.lr.phase = .done) : lrMicro s = .next (lrDone s) := by
  simp [lrMicro, hp]

theorem step_lrStart {s : State} (h : ReaderActive s) (hp : s.lr.phase = .start) :
    step s = .next (lrStart (envMove s)) :=
  (step_reader h).trans (lrMicro_start hp)

theorem step_lrDone {s : State} (h : ReaderActive s) (hp : s.lr.phase = .done) :
    step s = .next (lrDone (envMove s)) :=
  (step_reader h).trans (lrMicro_done hp)

theorem lrCheck_stops {s : State} (h : timedOut s.params.timeoutCmp
    (elapsed (clockNow s.world) s.lr.tStart) s.lr.timeout = true) :
    lrCheck s = { s with lr := timeoutStop s.lr } := if_pos h

theorem lrCheck_polls {s : State}
    (h : withinBudget s.params.timeoutCmp (sinceStart s) s.lr.timeout.toNat = true) :
    lrCheck s = { s with lr := { s.lr with phase := .poll } } := by
  unfold sinceStart at h
  simp [lrCheck, timedOut, h]

theorem lrBackoff_stays {s : State} (h : sinceBackoff s < s.params.backoffMs) : lrBackoff s = s := by
  have hno : ¬s.params.backoffMs ≤ (elapsed (clockNow s.world) s.lr.tBk).toNat := not_le.mpr h
  simp [lrBackoff, backoffOver, hno]

theorem lrBackoff_ends {s : State} (h : s.params.backoffMs ≤ sinceBackoff s) :
    lrBackoff s = { s with lr := { s.lr with phase := .check } } := if_pos (decide_eq_true h)

theorem isTerminator_iff {b : Byte} : isTerminator b = true ↔ b = 0x0D#8 := by
  simp [isTerminator, terminator]

theorem lrAccept_terminator (lr : LrRegs) : lrAccept 0x0D#8 lr =
    { lr with lbuf := lr.lbuf ++ [0x0D#8], success := true, phase := .done } := rfl

theorem lrAccept_other {b : Byte} (h : b ≠ 0x0D#8) (lr : LrRegs) :
    lrAccept b lr = { lr with lbuf := lr.lbuf ++ [b], phase := .check } :=
  if_neg (mt isTerminator_iff.mp h)

theorem lineFull_of_eq {s : State} (h : s.params.lineCap = some (lineLen s)) : lineFull s = true := by
  simp [lineFull, h]

theorem lineFull_of_unbounded {s : State} (h : s.params.lineCap = none) : lineFull s = false := by
  simp [lineFull, h]

theorem lineFull_of_room {s : State} {c : Nat} (hc : s.params.lineCap = some c) (h : lineLen s < c) :
    lineFull s = false := by
  simp [lineFull, hc, h]

/-- Settles O21: acceptance, and then the row START after one move of the environment. -/
theorem readlineStarts : Obligations.ReadlineStarts := by
  intro n s hb hu
  obtain ⟨harrived, _⟩ := move_adds s.world
  exact ⟨acceptReadline n s, exec_readline_accepts hb n, rfl,
    step_lrStart (acceptReadline_active hu n) rfl, harrived⟩

/-- Settles O22: `lrCheck` under each of the two comparisons. -/
theorem lineReaderCheckRow : Obligations.LineReaderCheckRow := by
  intro s hu hb hp
  have hrow : step s = .next (lrCheck (envMove s)) :=
    (step_reader ⟨hu, hb, by simp [hp]⟩).trans (lrMicro_check hp)
  refine ⟨fun hc => ⟨fun h => ?_, fun h => ?_⟩, fun hc => ⟨fun h => ?_, fun h => ?_⟩⟩
  · rw [hrow, lrCheck_stops (by rw [envMove_params, hc]; exact timedOut_gt.mpr h)]
    rfl
  · rw [hrow, lrCheck_polls (by rw [envMove_params, hc]; exact decide_eq_true h)]
    rfl
  · rw [hrow, lrCheck_stops (by rw [envMove_params, hc]; exact timedOut_ge.mpr h)]
    rfl
  · rw [hrow, lrCheck_polls (by rw [envMove_params, hc]; exact decide_eq_true h)]
    rfl

/-- Settles O23: the three answers of `lrPoll`. -/
theorem lineReaderPollRow : Obligations.LineReaderPollRow := by
  intro s hu hb hp
  have hrow : step s = lrPoll (envMove s) :=
    (step_reader ⟨hu, hb, by simp [hp]⟩).trans (lrMicro_poll hp)
  refine ⟨fun hrx => ⟨fun hroom => ?_, fun hfull => ?_⟩, fun hrx => ?_⟩
  · have hnot : lineFull s = false := by
      rcases hroom with hc | ⟨c, hc, hlt⟩
      · exact lineFull_of_unbounded hc
      · exact lineFull_of_room hc hlt
    exact hrow.trans (lrPoll_receives hrx hnot)
  · exact hrow.trans (lrPoll_refuses hrx (lineFull_of_eq (s := s) hfull))
  · exact hrow.trans (lrPoll_backs_off hrx)

/-- Settles O24: `lrAccept` of the terminator and of another byte, and the row DONE. -/
theorem lineReaderReceiveRow : Obligations.LineReaderReceiveRow := by
  intro s b rest hu hb hp hrx
  have hrow : step s =
      .next { s with world := { s.world.move with rxq := rest }, lr := lrAccept b s.lr } :=
    (step_reader ⟨hu, hb, by simp [hp]⟩).trans
      ((lrMicro_recv (s := envMove s) hp).trans (lrRecv_takes hrx))
  refine ⟨fun h => ?_, fun h => ?_⟩
  · subst h
    rw [lrAccept_terminator] at hrow
    refine ⟨_, hrow, rfl, ?_⟩
    exact step_lrDone ⟨hu, hb, nofun⟩ rfl
  · rwa [lrAccept_other h] at hrow

/-- Settles O25: `lrBackoff` looks at the clock and `T_BK` alone. -/
theorem lineReaderBackoffRow : Obligations.LineReaderBackoffRow := by
  intro s hu hb hp
  have hrow : step s = .next (lrBackoff (envMove s)) :=
    (step_reader ⟨hu, hb, by simp [hp]⟩).trans (lrMicro_backoff hp)
  refine ⟨fun h => ?_, fun h => ?_⟩
  · rw [hrow, lrBackoff_stays (s := envMove s) h]
    rfl
  · rw [hrow, lrBackoff_ends (s := envMove s) h]
    rfl

/-- Settles O52: `lrPoll` looks at the accumulator's room before it goes on to the receive. -/
theorem fullAccumulatorIsRefused : Obligations.FullAccumulatorIsRefused := by
  intro s
  refine ⟨fun hrx hc => lrPoll_refuses hrx (lineFull_of_eq hc), fun hc => ?_,
    fun c hrx hc hlt => lrPoll_receives hrx (lineFull_of_room hc hlt)⟩
  by_cases hrx : s.world.rxq = []
  · simp [lrPoll_backs_off hrx]
  · simp [lrPoll_receives hrx (lineFull_of_unbounded hc)]

/-- Settles O53: `lrAccept` of the terminator and of another byte, on any transport and clock. -/
theorem receivedTerminatorStops : Obligations.ReceivedTerminatorStops := by
  intro s b rest hp hrx
  refine ⟨_, (lrMicro_recv hp).trans (lrRecv_takes hrx), ?_⟩
  by_cases h : b = 0x0D#8
  · subst h
    rw [lrAccept_terminator]
    exact ⟨rfl, rfl, by simp, fun _ => ⟨rfl, fun w => lrMicro_done rfl⟩, fun hne => absurd rfl hne⟩
  · rw [lrAccept_other h]
    exact ⟨rfl, rfl, by simp [h], fun he => absurd he h, fun _ => ⟨rfl, rfl⟩⟩

/-! ### What ends a line and what makes it (R159) -/

/-- Settles O31: the environment appends at the tail of the stream, and a row of the reader moves at most
one byte from its head to the end of the line. -/
theorem lineIsAContiguousRunOfTheStream : Obligations.LineIsAContiguousRunOfTheStream := by
  intro s t hu hb hl h
  rw [step_reader ⟨hu, hb, hl⟩] at h
  obtain ⟨⟨arrived, harr⟩, _⟩ := move_adds s.world
  obtain ⟨_, _, _, _, taken, hrx, hline, hlen, _⟩ := lrMicro_frame h
  rw [envMove_world, harr] at hrx
  refine ⟨⟨arrived, ?_⟩, taken, hline, hlen⟩
  rw [hline, envMove_lr, List.append_assoc, ← hrx, List.append_assoc]

/-! ### What a row can do, one case an edge of R157 -/

/-- The edges of R157: from which phase, under which condition, to which whole next state. -/
inductive ReaderRow (s : State) : State → Prop
  | starts (hp : s.lr.phase = .start) : ReaderRow s (lrStart s)
  | stops (hp : s.lr.phase = .check) (hover : timedOut s.params.timeoutCmp
      (elapsed (clockNow s.world) s.lr.tStart) s.lr.timeout = true) :
      ReaderRow s { s with lr := timeoutStop s.lr }
  | polls (hp : s.lr.phase = .check)
      (hin : withinBudget s.params.timeoutCmp (sinceStart s) s.lr.timeout.toNat = true) :
      ReaderRow s { s with lr := { s.lr with phase := .poll } }
  | receives (hp : s.lr.phase = .poll) (hrx : s.world.rxq ≠ []) (hroom : lineFull s = false) :
      ReaderRow s { s with lr := { s.lr with phase := .recv } }
  | backsOff (hp : s.lr.phase = .poll) (hrx : s.world.rxq = []) :
      ReaderRow s { s with lr := { s.lr with tBk := clockNow s.world, phase := .backoff } }
  | takesTerminator (hp : s.lr.phase = .recv) {rest : List Byte} (hrx : s.world.rxq = 0x0D#8 :: rest) :
      ReaderRow s { s with
        lr := { s.lr with lbuf := s.lr.lbuf ++ [0x0D#8], success := true, phase := .done },
        world := { s.world with rxq := rest } }
  | takesOther (hp : s.lr.phase = .recv) {b : Byte} {rest : List Byte} (hrx : s.world.rxq = b :: rest)
      (hb : b ≠ 0x0D#8) : ReaderRow s { s with
        lr := { s.lr with lbuf := s.lr.lbuf ++ [b], phase := .check },
        world := { s.world with rxq := rest } }
  | waits (hp : s.lr.phase = .backoff) (hlt : sinceBackoff s < s.params.backoffMs) : ReaderRow s s
  | resumes (hp : s.lr.phase = .backoff) (hge : s.params.backoffMs ≤ sinceBackoff s) :
      ReaderRow s { s with lr := { s.lr with phase := .check } }
  | ends (hp : s.lr.phase = .done) : ReaderRow s (lrDone s)

theorem readerRow_of_lrMicro {s t : State} (h : lrMicro s = .next t) : ReaderRow s t := by
  rcases lrMicro_cases h with ⟨hp, rfl⟩ | ⟨hp, rfl⟩ | ⟨hp, ha, hroom, rfl⟩ | ⟨hp, ha, rfl⟩ |
    ⟨hp, b, rest, hrx, rfl⟩ | ⟨hp, rfl⟩ | ⟨hp, rfl⟩
  · exact .starts hp
  · cases hover : timedOut s.params.timeoutCmp (elapsed (clockNow s.world) s.lr.tStart) s.lr.timeout
    · have hin : withinBudget s.params.timeoutCmp (sinceStart s) s.lr.timeout.toNat = true := by
        simpa [timedOut, sinceStart] using hover
      exact lrCheck_polls hin ▸ .polls hp hin
    · exact lrCheck_stops hover ▸ .stops hp hover
  · exact .receives hp (by simpa [tAvail] using ha) hroom
  · exact .backsOff hp (by simpa [tAvail] using ha)
  · by_cases hb : b = 0x0D#8
    · subst hb
      exact .takesTerminator hp hrx
    · rw [lrAccept_other hb]
      exact .takesOther hp hrx hb
  · rcases lt_or_ge (sinceBackoff s) s.params.backoffMs with hlt | hge
    · exact (lrBackoff_stays hlt).symm ▸ .waits hp hlt
    · exact lrBackoff_ends hge ▸ .resumes hp hge
  · exact .ends hp

/-- No row but DONE ends the operation or touches the interface, and the time since the sample of START
stands from one row to the next, as only the environment moves the clock. -/
theorem ReaderRow.keeps {s t : State} (h : ReaderRow s t) (hd : s.lr.phase ≠ .done) :
    t.io = s.io ∧ t.lr.phase ≠ .idle ∧ t.lr.phase ≠ .start ∧ t.lr.timeout = s.lr.timeout ∧
      t.world.env = s.world.env ∧ (s.lr.phase ≠ .start → sinceStart t = sinceStart s) := by
  cases h with
  | starts hp => exact ⟨rfl, nofun, nofun, rfl, rfl, fun hne => absurd hp hne⟩
  | waits hp => exact ⟨rfl, by simp [hp], by simp [hp], rfl, rfl, fun _ => rfl⟩
  | ends hp => exact absurd hp hd
  | stops | polls | receives | backsOff | takesTerminator | takesOther | resumes =>
    exact ⟨rfl, nofun, nofun, rfl, rfl, fun _ => rfl⟩

/-- A row of a running reader answers a next state, unless a byte waits at a full accumulator. -/
theorem lrMicro_next_or_full {s : State} (hl : s.lr.phase ≠ .idle)
    (hw : s.lr.phase = .recv → s.world.rxq ≠ []) :
    (∃ t, lrMicro s = .next t) ∨
      lineFull s = true ∧ lrMicro s = .refused .lineCapExceeded := by
  cases hp : s.lr.phase with
  | idle => exact absurd hp hl
  | start => exact .inl ⟨_, lrMicro_start hp⟩
  | check => exact .inl ⟨_, lrMicro_check hp⟩
  | poll =>
    rw [lrMicro_poll hp]
    by_cases hrx : s.world.rxq = []
    · exact .inl ⟨_, lrPoll_backs_off hrx⟩
    · cases hf : lineFull s
      · exact .inl ⟨_, lrPoll_receives hrx hf⟩
      · exact .inr ⟨rfl, lrPoll_refuses hrx hf⟩
  | recv =>
    obtain ⟨b, rest, hrx⟩ := List.exists_cons_of_ne_nil (hw hp)
    exact .inl ⟨_, (lrMicro_recv hp).trans (lrRecv_takes hrx)⟩
  | backoff => exact .inl ⟨_, lrMicro_backoff hp⟩
  | done => exact .inl ⟨_, lrMicro_done hp⟩

/-- A reader that has not reached its last row stays the active unit. -/
theorem readerActive_of_row {s t : State} (h : ReaderActive s) (hm : lrMicro (envMove s) = .next t)
    (hd : s.lr.phase ≠ .done) : ReaderActive t := by
  obtain ⟨hio, hne, _⟩ := (readerRow_of_lrMicro hm).keeps hd
  have hhost := (lrMicro_frame hm).1.host
  have hu : undisturbed t = undisturbed s := by
    simp only [undisturbed, hostBlocked, hio, hhost, envMove_io, envMove_host]
  exact ⟨hu.trans h.undisturbed, (congrArg IoRegs.busy hio).trans h.busy, hne⟩

/-- A step that changes the reader's phase to `DONE` is a row of the reader: no command and no host
action does (R32). -/
theorem readerRow_of_step_to_done {s t : State} (hb : s.io.busy = true) (h : step s = .next t)
    (hl : s.lr.phase ≠ .idle) (hd : s.lr.phase ≠ .done) (ht : t.lr.phase = .done) :
    ∃ q, ReaderRow (withQueue q (envMove s)) t := by
  rcases step_cases h with ⟨w, _, h⟩ | ⟨_, a, rest, _, h⟩ | ⟨_, _, _, h⟩ | ⟨_, _, hidle, _⟩
  · rcases exec_cases h with ⟨_, _, rfl⟩ | ⟨hidle, _⟩
    · exact absurd ht hd
    · exact absurd (hb.symm.trans hidle) nofun
  · by_cases ha : a = .reset
    · subst ha
      cases h
      exact absurd ht nofun
    · obtain ⟨_, _, hlr, _⟩ := hostAct_keeps_units h ha
      rw [hlr] at ht
      exact absurd ht hd
  · rcases unitMicro_cases h with ⟨_, h⟩ | ⟨hidle, _⟩ | ⟨hidle, _⟩
    · exact ⟨_, readerRow_of_lrMicro h⟩
    · exact absurd hidle hl
    · exact absurd hidle hl
  · exact absurd (hb.symm.trans hidle) nofun

/-- Settles O30: of the rows of a running reader only RECV of 0x0D and CHECK beyond the timeout lead to
`DONE`, and until then the line holds no 0x0D. -/
theorem readlineEndsOnlyByTerminatorOrTimeout :
    Obligations.ReadlineEndsOnlyByTerminatorOrTimeout := by
  intro s t hinv h hl hd ht
  have hb : s.io.busy = true := by
    by_contra hnb
    obtain ⟨_, _, hidle⟩ := hinv.units.quiet (Bool.eq_false_of_not_eq_true hnb)
    exact hl hidle
  have hno := hinv.reader.failed (hinv.reader.running hl hd)
  obtain ⟨q, hrow⟩ := readerRow_of_step_to_done hb h hl hd ht
  cases hrow with
  | takesTerminator hp => exact .inl ⟨rfl, hp, rfl, hno⟩
  | stops hp hover =>
    refine .inr ⟨rfl, hp, rfl, hno, fun hc => ?_, fun hc => ?_⟩
    · rw [withQueue_params, envMove_params, hc] at hover
      exact timedOut_gt.mp hover
    · rw [withQueue_params, envMove_params, hc] at hover
      exact timedOut_ge.mp hover
  | ends hp => exact absurd hp hd
  | waits hp => exact absurd (hp.symm.trans ht) nofun
  | starts | polls | receives | backsOff | takesOther | resumes => exact absurd ht nofun

/-! ### Runs over scripted moves of the environment (R61, R62) -/

@[simp] theorem allArrivals_nil : allArrivals [] = [] := rfl

@[simp] theorem allArrivals_cons (m : EnvMove) (ms : List EnvMove) :
    allArrivals (m :: ms) = m.arrivals ++ allArrivals ms := rfl

theorem allArrivals_append (ms ms' : List EnvMove) :
    allArrivals (ms ++ ms') = allArrivals ms ++ allArrivals ms' := List.flatMap_append

@[simp] theorem totalTicks_nil : totalTicks [] = 0 := rfl

@[simp] theorem totalTicks_cons (m : EnvMove) (ms : List EnvMove) :
    totalTicks (m :: ms) = m.ticks + totalTicks ms := List.sum_cons

theorem totalTicks_append (ms ms' : List EnvMove) :
    totalTicks (ms ++ ms') = totalTicks ms + totalTicks ms' := by
  simp [totalTicks]

theorem moves_script (w : World) (ms more : List EnvMove) (h : w.env = ms ++ more) :
    w.moves ms.length = { w with rxq := w.rxq ++ allArrivals ms, clock := w.clock + totalTicks ms,
                                 env := more } := by
  induction ms generalizing w with
  | nil => simp [← List.nil_append more ▸ h]
  | cons m ms ih =>
    have hm := move_script w m (ms ++ more) h
    rw [List.length_cons, ← move_moves, ih w.move (by rw [hm]), hm]
    simp [List.append_assoc, Nat.add_assoc]

/-- A clock that has advanced by `d` shows `d` more since the sample of START. -/
theorem sinceStart_advances {s t : State} {d : Nat} (hclock : t.world.clock = s.world.clock + d)
    (hstart : t.lr.tStart = s.lr.tStart) (h : sinceStart s + d < 2 ^ 32) :
    sinceStart t = sinceStart s + d := by
  rw [sinceStart, clockNow, hclock, hstart]
  exact elapsed_advances h

theorem sinceBackoff_advances {s t : State} {d : Nat} (hclock : t.world.clock = s.world.clock + d)
    (hstart : t.lr.tBk = s.lr.tBk) (h : sinceBackoff s + d < 2 ^ 32) :
    sinceBackoff t = sinceBackoff s + d := by
  rw [sinceBackoff, clockNow, hclock, hstart]
  exact elapsed_advances h

/-- At the sample of START no time has passed since it. -/
theorem sinceStart_lrStart (s : State) : sinceStart (lrStart s) = 0 := by
  simp [sinceStart, elapsed]

/-! ### A line that waits (R152, R153, R154) -/

theorem ReaderActive.withLr {s : State} (h : ReaderActive s) (lr : LrRegs) (w : World)
    (hne : lr.phase ≠ .idle) : ReaderActive { s with lr := lr, world := w } :=
  ⟨h.undisturbed, h.busy, hne⟩

/-- With a byte waiting, room and the CHECK in time, the rows CHECK, POLL and RECV take that byte. -/
theorem reader_takes_byte {s : State} {b : Byte} {rest : List Byte} {m₁ m₂ m₃ : EnvMove}
    {more : List EnvMove} (h : ReaderActive s) (hp : s.lr.phase = .check)
    (hrx : s.world.rxq = b :: rest) (hroom : lineFull s = false)
    (henv : s.world.env = m₁ :: m₂ :: m₃ :: more)
    (hin : withinBudget s.params.timeoutCmp (sinceStart s + m₁.ticks) s.lr.timeout.toNat = true) :
    runFor 3 s = .next { s with
      lr := lrAccept b s.lr,
      world := { s.world with rxq := rest ++ allArrivals [m₁, m₂, m₃],
                              clock := s.world.clock + totalTicks [m₁, m₂, m₃], env := more } } := by
  have hcheck : step s = .next { s with world := s.world.move, lr := { s.lr with phase := .poll } } := by
    have htime : sinceStart (envMove s) = sinceStart s + m₁.ticks := by
      have hle := le_of_withinBudget hin
      exact sinceStart_advances (congrArg World.clock (move_script _ _ _ henv)) rfl (by omega)
    rw [step_reader h, lrMicro_check (s := envMove s) hp, lrCheck_polls (htime ▸ hin)]
    rfl
  have hpoll {w : World} (hw : w.move.rxq ≠ []) :
      step { s with world := w, lr := { s.lr with phase := .poll } } =
        .next { s with world := w.move, lr := { s.lr with phase := .recv } } := by
    rw [step_reader (h.withLr { s.lr with phase := .poll } w nofun), lrMicro_poll rfl]
    exact lrPoll_receives hw hroom
  have hrecv {w : World} {tail : List Byte} (hw : w.move.rxq = b :: tail) :
      step { s with world := w, lr := { s.lr with phase := .recv } } =
        .next { s with world := { w.move with rxq := tail }, lr := lrAccept b s.lr } := by
    rw [step_reader (h.withLr { s.lr with phase := .recv } w nofun), lrMicro_recv rfl]
    exact lrRecv_takes hw
  have hw := moves_script s.world [m₁, m₂, m₃] more henv
  have hrx3 : s.world.move.move.move.rxq = b :: (rest ++ allArrivals [m₁, m₂, m₃]) :=
    (congrArg World.rxq hw).trans (by simp [hrx])
  have hrx2 : s.world.move.move.rxq ≠ [] :=
    move_rxq_ne_nil _ (move_rxq_ne_nil _ (by simp [hrx]))
  rw [runFor_succ 2 hcheck, runFor_succ 1 (hpoll hrx2), runFor_succ 0 (hrecv hrx3), runFor_zero,
    show s.world.move.move.move = _ from hw]

/-- With 0x0D waiting behind `pre`, room for the line and the last CHECK in time, a reader in CHECK takes
the line byte by byte, three rows each. -/
theorem reader_takes_line {s : State} {pre rest : List Byte} {ms more : List EnvMove}
    (h : ReaderActive s) (hp : s.lr.phase = .check) (hrx : s.world.rxq = pre ++ 0x0D#8 :: rest)
    (hpre : 0x0D#8 ∉ pre) (hroom : ∀ c, s.params.lineCap = some c → lineLen s + pre.length < c)
    (henv : s.world.env = ms ++ more) (hlen : ms.length = 3 * (pre.length + 1))
    (hin : withinBudget s.params.timeoutCmp (sinceStart s + totalTicks (ms.take (3 * pre.length + 1)))
      s.lr.timeout.toNat = true) :
    runFor (3 * (pre.length + 1)) s = .next { s with
      lr := { s.lr with phase := .done, lbuf := s.lr.lbuf ++ (pre ++ [0x0D#8]), success := true },
      world := { s.world with rxq := rest ++ allArrivals ms,
                              clock := s.world.clock + totalTicks ms, env := more } } := by
  induction pre generalizing s rest ms with
  | nil =>
    obtain ⟨m₁, m₂, m₃, rfl⟩ := List.length_eq_three.mp hlen
    have hnot := (lineFull_false_iff s).mpr hroom
    exact reader_takes_byte h hp hrx hnot henv (by simpa using hin)
  | cons b pre ih =>
    obtain ⟨m₁, m₂, m₃, ms, rfl⟩ : ∃ m₁ m₂ m₃ ms', ms = m₁ :: m₂ :: m₃ :: ms' := by
      match ms with
      | m₁ :: m₂ :: m₃ :: ms => exact ⟨m₁, m₂, m₃, ms, rfl⟩
    obtain ⟨hb, hpre⟩ := not_or.mp (mt List.mem_cons.mpr hpre)
    have hnot : lineFull s = false := (lineFull_false_iff s).mpr fun c hc => by
      have := hroom c hc
      omega
    have hlen' : ms.length = 3 * (pre.length + 1) := by simpa [Nat.mul_add] using hlen
    have htake : totalTicks ((m₁ :: m₂ :: m₃ :: ms).take (3 * (b :: pre).length + 1)) =
        totalTicks [m₁, m₂, m₃] + totalTicks (ms.take (3 * pre.length + 1)) := by
      simp [Nat.mul_add, Nat.add_assoc]
    have hsteps : 3 * ((b :: pre).length + 1) = 3 + 3 * (pre.length + 1) := by
      rw [List.length_cons]
      omega
    rw [htake, ← Nat.add_assoc] at hin
    have hle := le_of_withinBudget hin
    have hfirst := reader_takes_byte h hp hrx hnot henv
      (withinBudget_mono (by rw [totalTicks_cons]; omega) hin)
    rw [lrAccept_other (Ne.symm hb)] at hfirst
    rw [hsteps, runFor_trans _ hfirst, ih (rest := rest ++ allArrivals [m₁, m₂, m₃])
      (h.withLr _ _ ?_) rfl (List.append_assoc _ _ _) hpre ?_ rfl hlen' ?_]
    · simp [Nat.add_assoc]
    · nofun
    · intro c hc
      have hlt := hroom c hc
      simp only [lineLen, List.length_append, List.length_cons, List.length_nil] at hlt ⊢
      omega
    · rw [sinceStart_advances (s := s) (d := totalTicks [m₁, m₂, m₃]) ?_ ?_ (by omega)]
      · exact hin
      · rfl
      · rfl

/-- A list of `k + 2` elements is a first one, `k` between and a last one. -/
theorem exists_first_mid_last {α : Type} {l : List α} {k : Nat} (h : l.length = k + 2) :
    ∃ a mid z, l = a :: (mid ++ [z]) ∧ mid.length = k := by
  obtain ⟨a, t, rfl⟩ := List.exists_cons_of_length_eq_add_one h
  have ht : t.length = k + 1 := by simpa using h
  have hne : t ≠ [] := List.ne_nil_of_length_eq_add_one ht
  exact ⟨a, t.dropLast, t.getLast hne, by rw [List.dropLast_append_getLast], by simp [ht]⟩

/-- Settles O27: acceptance and START, the rows that take the line, and the row that returns. -/
theorem readlineReturnsTheWaitingLine : Obligations.ReadlineReturnsTheWaitingLine := by
  intro n s pre rest ms more hb hu hrx hpre hroom henv hlen hin
  obtain ⟨m, mid, last, rfl, hmid⟩ := exists_first_mid_last hlen
  have hworld := move_script s.world m (mid ++ [last] ++ more) henv
  have hstart := step_lrStart (acceptReadline_active hu n) rfl
  have hwindow : withinBudget s.params.timeoutCmp
      (sinceStart (lrStart (envMove (acceptReadline n s))) +
        totalTicks (mid.take (3 * pre.length + 1))) n.toNat = true := by
    rw [sinceStart_lrStart, Nat.zero_add, ← List.take_append_of_le_length (by omega)]
    exact hin
  have hline := reader_takes_line (s := lrStart (envMove (acceptReadline n s)))
    (rest := rest ++ m.arrivals) (more := last :: more) ⟨hu, rfl, nofun⟩ rfl
    (by simp [hworld, hrx]) hpre (by simpa [lineLen, Buffer.clear] using hroom)
    (by simp [hworld]) hmid hwindow
  refine ⟨_, exec_readline_accepts hb n, ?_⟩
  rw [show 3 * (pre.length + 1) + 2 = 1 + 3 * (pre.length + 1) + 1 by omega]
  refine (runFor_snoc (runFor_append ((runFor_one _).trans hstart) hline)
    (step_lrDone ⟨hu, rfl, ?_⟩ rfl)).trans ?_
  · nofun
  · simp [lrDone, lrStart, acceptReadline, envMove, hworld, beginOp, finishOp, clockNow, Buffer.clear,
      allArrivals_append, totalTicks_append, Nat.add_assoc]

/-! ### A timeout that cannot expire (R164) -/

/-- READLINE 2^32 - 1 runs under `gt` with no bound on the line, and no 0x0D waits or is among the
arrivals of the moves `ms` still to come (R164 item 2). -/
structure Endless (ms more : List EnvMove) (s : State) : Prop where
  active : ReaderActive s
  unfinished : s.io.done = false
  running : s.lr.phase ≠ .done
  waiting : s.lr.phase = .recv → s.world.rxq ≠ []
  longest : s.lr.timeout = 0xFFFFFFFF#32
  cmp : s.params.timeoutCmp = .gt
  unbounded : s.params.lineCap = none
  script : s.world.env = ms ++ more
  noTerminator : 0x0D#8 ∉ s.world.rxq ++ allArrivals ms

/-- No elapsed time is above 2^32 - 1. -/
theorem timedOut_gt_longest (e : Ms) : timedOut .gt e 0xFFFFFFFF#32 = false := by
  have he := e.isLt
  refine Bool.eq_false_of_not_eq_true (mt timedOut_gt.mp ?_)
  simp only [BitVec.toNat_ofNat]
  omega

/-- A row of such a run is neither the stop of CHECK nor that of RECV. -/
theorem ReaderRow.endless {s t : State} {ms more : List EnvMove} (h : Endless ms more s)
    (hrow : ReaderRow s t) : t.lr.phase ≠ .done ∧ (t.lr.phase = .recv → t.world.rxq ≠ []) := by
  cases hrow with
  | stops hp hover =>
    rw [h.cmp, h.longest, timedOut_gt_longest] at hover
    exact absurd hover nofun
  | takesTerminator hp hrx => exact absurd (by simp [hrx]) h.noTerminator
  | ends hp => exact absurd hp h.running
  | receives hp hrx => exact ⟨nofun, fun _ => hrx⟩
  | waits hp => exact ⟨h.running, h.waiting⟩
  | starts | polls | backsOff | takesOther | resumes => exact ⟨nofun, nofun⟩

theorem endless_step {s : State} {m : EnvMove} {ms more : List EnvMove}
    (h : Endless (m :: ms) more s) : ∃ t, step s = .next t ∧ Endless ms more t := by
  have hw := move_script s.world m (ms ++ more) h.script
  have he : Endless ms more (envMove s) :=
    { h with
      active := ⟨h.active.undisturbed, h.active.busy, h.active.reader⟩
      waiting := fun hp => move_rxq_ne_nil _ (h.waiting hp)
      script := congrArg World.env hw
      noTerminator := by
        have hno := h.noTerminator
        rw [allArrivals_cons, ← List.append_assoc] at hno
        rw [envMove_world, hw]
        exact hno }
  obtain ⟨t, ht⟩ : ∃ t, lrMicro (envMove s) = .next t := by
    rcases lrMicro_next_or_full he.active.reader he.waiting with ht | ⟨hfull, _⟩
    · exact ht
    · exact absurd (hfull.symm.trans (lineFull_of_unbounded he.unbounded)) nofun
  have hrow := readerRow_of_lrMicro ht
  obtain ⟨hframe, _, _, _, taken, hrx, _⟩ := lrMicro_frame ht
  obtain ⟨hio, _, _, htimeout, henv, _⟩ := hrow.keeps he.running
  obtain ⟨hrunning, hwaiting⟩ := hrow.endless he
  refine ⟨t, (step_reader h.active).trans ht, readerActive_of_row h.active ht h.running,
    (congrArg IoRegs.done hio).trans he.unfinished, hrunning, hwaiting, htimeout.trans he.longest, ?_,
    ?_, henv.trans he.script, ?_⟩
  · rw [hframe.params]
    exact he.cmp
  · rw [hframe.params]
    exact he.unbounded
  · have hno := he.noTerminator
    rw [hrx, List.append_assoc] at hno
    exact fun hmem => hno (List.mem_append_right _ hmem)

theorem endless_runs {s : State} {ms more : List EnvMove} (h : Endless ms more s) :
    ∃ u, runFor ms.length s = .next u ∧ Endless [] more u := by
  induction ms generalizing s with
  | nil => exact ⟨s, rfl, h⟩
  | cons m ms ih =>
    obtain ⟨t, hs, ht⟩ := endless_step h
    obtain ⟨u, hrun, hu⟩ := ih ht
    exact ⟨u, (runFor_succ _ hs).trans hrun, hu⟩

/-- Settles O29: acceptance begins such a run, and each move of the script keeps it running. -/
theorem longestTimeoutNeverExpires : Obligations.LongestTimeoutNeverExpires := by
  intro s ms more hb hu hcmp hcap henv hno
  have h : Endless ms more (acceptReadline 0xFFFFFFFF#32 s) :=
    ⟨acceptReadline_active hu _, rfl, nofun, nofun, rfl, hcmp, hcap, henv, hno⟩
  obtain ⟨u, hrun, hlast⟩ := endless_runs h
  exact ⟨_, u, exec_readline_accepts hb _, hrun, hlast.active.busy, hlast.unfinished⟩

/-! ### A clock that ticks with every move (R163) -/

/-- How many moves that tick an operation needs, from its phase on, to come to a CHECK and make it: the
rows back to CHECK, the longest way being a backoff, and the CHECK itself. -/
def movesNeeded (s : State) : Nat :=
  match s.lr.phase with
  | .idle | .start | .done => 0
  | .check => 1
  | .poll => s.params.backoffMs + 2
  | .recv => s.params.backoffMs + 1
  | .backoff => s.params.backoffMs + 1 - sinceBackoff s

/-- A READLINE past START whose clock ticks with each of the moves `ms` still to come, and for which these
moves are enough: to run out the timeout and a backoff that began within it (`lasts`), and to come to a
CHECK from where it is (`enough`). -/
structure InTime (ms more : List EnvMove) (s : State) : Prop where
  active : ReaderActive s
  inv : MachineInv s
  started : s.lr.phase ≠ .start
  script : s.world.env = ms ++ more
  ticks : ∀ m ∈ ms, 1 ≤ m.ticks
  noWrap : sinceStart s + totalTicks ms < 2 ^ 32
  backoff : s.lr.phase = .backoff →
    sinceBackoff s < s.params.backoffMs ∧ sinceBackoff s ≤ sinceStart s
  lasts : s.lr.timeout.toNat + s.params.backoffMs + 2 ≤ sinceStart s + ms.length
  enough : movesNeeded s ≤ ms.length

/-- Where no move is needed any more the operation is in its last row. -/
theorem InTime.done_of_nil {s : State} {more : List EnvMove} (h : InTime [] more s) :
    s.lr.phase = .done := by
  have henough := h.enough
  cases hp : s.lr.phase with
  | idle => exact absurd hp h.active.reader
  | start => exact absurd hp h.started
  | done => rfl
  | backoff =>
    obtain ⟨hlt, _⟩ := h.backoff hp
    simp only [movesNeeded, hp, List.length_nil] at henough
    omega
  | check | poll | recv => simp [movesNeeded, hp] at henough

theorem InTime.clock_envMove {s : State} {m : EnvMove} {ms more : List EnvMove}
    (h : InTime (m :: ms) more s) : (envMove s).world.clock = s.world.clock + m.ticks :=
  congrArg World.clock (move_script _ _ _ h.script)

theorem InTime.sinceStart_envMove {s : State} {m : EnvMove} {ms more : List EnvMove}
    (h : InTime (m :: ms) more s) : sinceStart (envMove s) = sinceStart s + m.ticks := by
  have hwrap := h.noWrap
  rw [totalTicks_cons] at hwrap
  exact sinceStart_advances h.clock_envMove rfl (by omega)

/-- When a backoff begins no time has passed since it. -/
theorem sinceBackoff_eq_zero {s : State} (h : s.lr.tBk = clockNow s.world) : sinceBackoff s = 0 := by
  simp [sinceBackoff, elapsed, h]

/-- A row after a move that ticked leaves enough moves to come to a CHECK. In CHECK the timeout has not
run out when it goes on to POLL, so that there is time left for a backoff. -/
theorem ReaderRow.inTime {s t : State} {m : EnvMove} {ms more : List EnvMove}
    (hrow : ReaderRow (envMove s) t) (h : InTime (m :: ms) more s) (hd : s.lr.phase ≠ .done) :
    (t.lr.phase = .backoff → sinceBackoff t < t.params.backoffMs ∧ sinceBackoff t ≤ sinceStart t) ∧
      movesNeeded t ≤ ms.length := by
  have hpos := h.inv.ranges.backoff
  have htick := h.ticks m List.mem_cons_self
  have henough := h.enough
  rw [List.length_cons] at henough
  cases hrow with
  | starts hp => exact absurd hp h.started
  | ends hp => exact absurd hp hd
  | stops | takesTerminator => exact ⟨nofun, Nat.zero_le _⟩
  | polls hp hin =>
    have hle : sinceStart (envMove s) ≤ s.lr.timeout.toNat := le_of_withinBudget hin
    have hlasts := h.lasts
    rw [h.sinceStart_envMove] at hle
    rw [List.length_cons] at hlasts
    refine ⟨nofun, ?_⟩
    simp only [movesNeeded, envMove_params]
    omega
  | receives hp =>
    refine ⟨nofun, ?_⟩
    simp only [movesNeeded, envMove_params, show s.lr.phase = .poll from hp] at henough ⊢
    omega
  | backsOff hp =>
    simp only [movesNeeded, envMove_params, show s.lr.phase = .poll from hp] at henough ⊢
    rw [sinceBackoff_eq_zero rfl]
    exact ⟨fun _ => ⟨hpos, Nat.zero_le _⟩, by omega⟩
  | takesOther hp =>
    refine ⟨nofun, ?_⟩
    simp only [movesNeeded, show s.lr.phase = .recv from hp] at henough ⊢
    omega
  | waits hp hlt =>
    obtain ⟨_, hle⟩ := h.backoff hp
    have hwrap := h.noWrap
    rw [totalTicks_cons] at hwrap
    have hback : sinceBackoff (envMove s) = sinceBackoff s + m.ticks :=
      sinceBackoff_advances h.clock_envMove rfl (by omega)
    rw [hback, envMove_params] at hlt ⊢
    rw [h.sinceStart_envMove]
    simp only [movesNeeded, envMove_params, envMove_lr, hback,
      show s.lr.phase = .backoff from hp] at henough ⊢
    exact ⟨fun _ => ⟨hlt, by omega⟩, by omega⟩
  | resumes hp =>
    obtain ⟨hlt, _⟩ := h.backoff hp
    refine ⟨nofun, ?_⟩
    simp only [movesNeeded, show s.lr.phase = .backoff from hp] at henough ⊢
    omega

theorem InTime.row {s t : State} {m : EnvMove} {ms more : List EnvMove}
    (h : InTime (m :: ms) more s) (hd : s.lr.phase ≠ .done) (ht : lrMicro (envMove s) = .next t) :
    InTime ms more t := by
  have hrow := readerRow_of_lrMicro ht
  have hparams := (lrMicro_frame ht).1.params
  obtain ⟨_, _, hstarted, htimeout, henv, hsince⟩ := hrow.keeps hd
  obtain ⟨hbackoff, henough⟩ := hrow.inTime h hd
  have htime : sinceStart t = sinceStart s + m.ticks := (hsince h.started).trans h.sinceStart_envMove
  have htick := h.ticks m List.mem_cons_self
  have hwrap := h.noWrap
  have hlasts := h.lasts
  rw [totalTicks_cons] at hwrap
  rw [List.length_cons] at hlasts
  refine ⟨readerActive_of_row h.active ht hd,
    inv_lrMicro (inv_envMove h.inv) h.active.busy h.active.reader ht, hstarted,
    henv.trans (congrArg World.env (move_script _ _ _ h.script)),
    fun m' hm' => h.ticks m' (List.mem_cons_of_mem m hm'), ?_, hbackoff, ?_, henough⟩
  · omega
  · rw [htime, htimeout, hparams, envMove_lr, envMove_params]
    omega

/-- Within `b` steps the operation has returned, or, with a finite `LINE_CAP`, has been refused at a full
accumulator. -/
def ReturnsWithin (b : Nat) (s : State) : Prop :=
  ∃ k, k ≤ b ∧
    ((∃ u, runFor k s = .next u ∧ MachineInv u ∧ u.io.busy = false ∧ u.io.done = true) ∨
     (s.params.lineCap ≠ none ∧ runFor k s = .refused .lineCapExceeded))

theorem ReturnsWithin.of_step {s t : State} {b : Nat} (hs : step s = .next t) (h : ReturnsWithin b t) :
    ReturnsWithin (b + 1) s := by
  obtain ⟨k, hk, hend⟩ := h
  refine ⟨k + 1, Nat.succ_le_succ hk, ?_⟩
  rwa [runFor_succ k hs, ← parametersNeverChange _ _ hs]

theorem returnsWithin_of_done {s : State} (h : ReaderActive s) (hi : MachineInv s)
    (hp : s.lr.phase = .done) (b : Nat) : ReturnsWithin (b + 1) s := by
  have hs := step_lrDone h hp
  exact ⟨1, Nat.succ_le_succ (Nat.zero_le b), .inl ⟨_, (runFor_one s).trans hs,
    everyStepKeepsTheInvariant _ _ hi hs, rfl, rfl⟩⟩

/-- With moves enough the operation returns within one step for each of them and one more. -/
theorem InTime.returns {s : State} {ms more : List EnvMove} (h : InTime ms more s) :
    ReturnsWithin (ms.length + 1) s := by
  induction ms generalizing s with
  | nil => exact returnsWithin_of_done h.active h.inv h.done_of_nil 0
  | cons m ms ih =>
    by_cases hd : s.lr.phase = .done
    · exact returnsWithin_of_done h.active h.inv hd _
    have hrow := step_reader h.active
    have hwaits (hp : s.lr.phase = .recv) : s.world.move.rxq ≠ [] :=
      move_rxq_ne_nil _ (h.inv.reader.waiting hp).1
    rcases lrMicro_next_or_full (s := envMove s) h.active.reader hwaits with ⟨t, ht⟩ | ⟨hfull, href⟩
    · exact .of_step (hrow.trans ht) (ih (h.row hd ht))
    · have hcap : s.params.lineCap ≠ none := fun hnone => by
        rw [lineFull_envMove, lineFull_of_unbounded hnone] at hfull
        exact absurd hfull nofun
      exact ⟨1, Nat.succ_le_succ (Nat.zero_le _), .inr ⟨hcap, (runFor_one s).trans (hrow.trans href)⟩⟩

/-- After acceptance and START the moves that are left are enough to run out the timeout and one backoff. -/
theorem inTime_lrStart {n : Arg} {s : State} {m : EnvMove} {ms more : List EnvMove} (hinv : MachineInv s)
    (hb : s.io.busy = false) (hu : undisturbed s = true) (henv : s.world.env = m :: (ms ++ more))
    (hlen : ms.length = n.toNat + s.params.backoffMs + 2) (hticks : ∀ m ∈ ms, 1 ≤ m.ticks)
    (hwrap : totalTicks ms < 2 ^ 32) : InTime ms more (lrStart (envMove (acceptReadline n s))) where
  active := ⟨hu, rfl, nofun⟩
  inv := everyStepKeepsTheInvariant _ _ (inv_acceptReadline hinv n hb)
    (step_lrStart (acceptReadline_active hu n) rfl)
  started := nofun
  script := congrArg World.env (move_script _ _ _ henv)
  ticks := hticks
  noWrap := by rwa [sinceStart_lrStart, Nat.zero_add]
  backoff := nofun
  lasts := by
    rw [sinceStart_lrStart, Nat.zero_add, hlen]
    rfl
  enough := by
    rw [hlen]
    exact Nat.succ_le_succ (Nat.zero_le _)

/-- Settles O28: acceptance, START, and a run with moves enough, whose end keeps the invariant. -/
theorem readlineTerminates : Obligations.ReadlineTerminates := by
  intro n s ms more hinv hb hu henv hlen hticks hwrap
  obtain ⟨m, ms, rfl⟩ := List.exists_cons_of_length_eq_add_one hlen
  rw [totalTicks_cons] at hwrap
  have hms : ms.length = n.toNat + s.params.backoffMs + 2 := by simpa using hlen
  have htime : InTime ms more (lrStart (envMove (acceptReadline n s))) :=
    inTime_lrStart hinv hb hu henv hms (fun m' hm' => hticks m' (List.mem_cons_of_mem m hm'))
      (by omega)
  obtain ⟨k, hk, hend⟩ := htime.returns.of_step (step_lrStart (acceptReadline_active hu n) rfl)
  refine ⟨_, exec_readline_accepts hb n, k, by omega, hend.imp_left ?_⟩
  rintro ⟨u, hrun, hinv', hbusy, hdone⟩
  exact ⟨u, hrun, hbusy, hdone, hinv'.reader.succeeded, hinv'.reader.failed⟩

end Sys2Proof.Machine

/-! ## 60_exceptions.md: no fault, the timeout as a normal return, and the host's moves

Under the invariant a row of the active unit answers a next state, or refuses a byte for which the line has
no room; so no step faults. A row does not look at the host's moves, so a step that counts down to one is
the step the block takes on its own, with the count put back. -/

namespace Sys2Proof.Machine

/-! ### A timeout (R206) -/

/-- Settles O26: the row CHECK that stops, and then the row DONE. -/
theorem timeoutIsANormalReturn : Obligations.TimeoutIsANormalReturn := by
  intro s hu hb hp hc hover
  obtain ⟨hgt, _⟩ := lineReaderCheckRow s hu hb hp
  obtain ⟨hstops, _⟩ := hgt hc
  rw [runFor_succ 1 (hstops hover), runFor_one]
  exact step_lrDone ⟨hu, hb, nofun⟩ rfl

/-! ### Who moves when no command is pending (R64, R218, log 4, log 26) -/

theorem step_hostDue {s : State} {a : HostAction} {rest : List HostMove} (hc : s.io.cmd = none)
    (hd : hostDue s = some (a, rest)) : step s = hostAct a (withQueue rest (envMove s)) := by
  rw [step_advance s hc, advance, hostDue_envMove, hd]

theorem step_noneDue {s : State} (hc : s.io.cmd = none) (hd : hostDue s = none) :
    step s = blockStep (withQueue (queueTick s.host.queue) (envMove s)) := by
  rw [step_advance s hc, advance, hostDue_envMove, hd, envMove_host]

theorem blockStep_busy {s : State} (hb : s.io.busy = true) : blockStep s = unitMicro s := if_pos hb

theorem blockStep_waits {s : State} (hb : s.io.busy = false) : blockStep s = .next s := by
  simp [blockStep, hb]

/-- While `BUSY` = 1 and no move is due, the host's queue only ticks beside the active unit's row. -/
theorem step_noneDue_busy {s : State} (hc : s.io.cmd = none) (hd : hostDue s = none)
    (hb : s.io.busy = true) :
    step s = onNext (withQueue (queueTick s.host.queue)) (unitMicro (envMove s)) := by
  rw [step_noneDue hc hd, blockStep_busy (s := withQueue _ (envMove s)) hb, unitMicro_withQueue]

theorem hostDue_whenIdle {s : State} {a : HostAction} {rest : List HostMove}
    (hq : s.host.queue = { wait := .whenIdle, act := a } :: rest) :
    hostDue s = if s.io.busy then none else some (a, rest) := by
  simp [hostDue, hq]

theorem hostDue_after_zero {s : State} {a : HostAction} {rest : List HostMove}
    (hq : s.host.queue = { wait := .after 0, act := a } :: rest) : hostDue s = some (a, rest) := by
  simp [hostDue, hq]

theorem hostDue_after_succ {s : State} {a : HostAction} {rest : List HostMove} {k : Nat}
    (hq : s.host.queue = { wait := .after (k + 1), act := a } :: rest) : hostDue s = none := by
  simp [hostDue, hq]

theorem onNext_onNext (f g : State → State) (o : Host.Outcome State Fault Refusal) :
    onNext f (onNext g o) = onNext (f ∘ g) o := by
  cases o <;> rfl

/-- With a count still to run, a busy step is the step of the block with no host move left, and the rest of
the count is put back. -/
theorem step_counting {s : State} {a : HostAction} {rest : List HostMove} {k : Nat}
    (hc : s.io.cmd = none) (hq : s.host.queue = { wait := .after (k + 1), act := a } :: rest)
    (hb : s.io.busy = true) :
    step s = onNext (withQueue ({ wait := .after k, act := a } :: rest)) (step (withQueue [] s)) := by
  have hempty : step (withQueue [] s) = onNext (withQueue []) (unitMicro (envMove (withQueue [] s))) :=
    step_noneDue_busy hc rfl hb
  have hmoved : envMove (withQueue [] s) = withQueue [] (envMove s) := rfl
  rw [hempty, hmoved, unitMicro_withQueue, onNext_onNext, onNext_onNext,
    step_noneDue_busy hc (hostDue_after_succ hq) hb, hq]
  rfl

/-- A busy step of the block with no host move left leaves the host as it was. -/
theorem step_emptyQueue_host {s t : State} (hc : s.io.cmd = none) (hb : s.io.busy = true)
    (h : step (withQueue [] s) = .next t) : t.host = (withQueue [] s).host := by
  rw [step_busy (withQueue [] s) ((undisturbed_iff _).mpr ⟨hc, rfl⟩) hb] at h
  exact (unitMicro_rowFrame h).host

/-- Settles O58: `hostDue` by the head of the queue, and `step_counting` for a count that runs. -/
theorem stepMakesTheHostMoveThatIsDue : Obligations.StepMakesTheHostMoveThatIsDue := by
  refine ⟨fun s a rest hc hd => step_hostDue hc hd, fun s a rest hq => ⟨fun hb => ?_, fun hb => ?_⟩,
    fun s a rest k hq => ⟨fun hk => ?_, fun hk => ?_⟩, fun s a rest k hc hq => ?_⟩
  · simp [hostDue_whenIdle hq, hb]
  · simp [hostDue_whenIdle hq, hb]
  · subst hk
    exact hostDue_after_zero hq
  · obtain ⟨j, rfl⟩ := Nat.exists_eq_succ_of_ne_zero hk.ne'
    exact hostDue_after_succ hq
  · have hblock : step s = blockStep
        (withQueue ({ wait := .after k, act := a } :: rest) (envMove s)) := by
      rw [step_noneDue hc (hostDue_after_succ hq), hq]
      rfl
    refine ⟨hblock, fun hb => hblock.trans (blockStep_waits hb), fun hb => ?_⟩
    have hcount := step_counting hc hq hb
    refine ⟨fun t ht => ?_, fun r hr => hcount.trans (congrArg (onNext _) hr),
      fun f hf => hcount.trans (congrArg (onNext _) hf)⟩
    have hhost := step_emptyQueue_host hc hb ht
    refine ⟨hhost, hcount.trans ((congrArg (onNext _) ht).trans ?_)⟩
    rw [onNext, withQueue, hhost]
    rfl

/-! ### No row of a unit faults (R172, R200) -/

/-- A running engine has a row in every phase, and reads its span at held indices only. -/
theorem crcMicro_answers {s : State} (h : MachineInv s)
    (hrun : s.ce.phase ≠ .idle ∨ s.fb.phase = .crcRun) : ∃ t, crcMicro s = .next t := by
  cases hp : s.ce.phase with
  | idle => exact ⟨_, crcMicro_idle hp (hrun.resolve_left (not_not.mpr hp))⟩
  | load =>
    rcases lt_or_ge s.ce.idx (engineLen s) with hi | hi
    · have hheld := hi.trans_le (engineLen_le h (by simp [hp]))
      exact ⟨_, crcMicro_load hp hi (read_isSome _ _ hheld)⟩
    · exact ⟨_, crcMicro_load_end hp hi⟩
  | shift =>
    rcases lt_or_ge s.ce.bitcnt crcSteps with hk | hk
    · exact ⟨_, crcMicro_shift hp hk⟩
    · exact ⟨_, crcMicro_shift_end hp hk⟩
  | done =>
    by_cases hf : s.fb.phase = .crcRun
    · exact ⟨_, crcMicro_done_build hp hf⟩
    · exact ⟨_, crcMicro_done hp hf⟩

/-- A running builder has a row in every phase, and copies bytes of its operand only. -/
theorem fbMicro_answers {s : State} (h : MachineInv s) (hf : s.fb.phase ≠ .idle) :
    ∃ t, fbMicro s = .next t := by
  cases hp : s.fb.phase with
  | idle => exact absurd hp hf
  | lenCalc => exact ⟨_, fbMicro_lenCalc hp⟩
  | mnem =>
    rcases lt_or_ge s.fb.idx (operandLen s) with hi | hi
    · have hheld := hi.trans_le (h.ranges.operand (.inr hf))
      exact ⟨_, fbMicro_mnem hp hi (read_isSome _ _ hheld)⟩
    · exact ⟨_, fbMicro_mnem_end hp hi⟩
  | crcRun =>
    rw [fbMicro_crcRun hp]
    exact crcMicro_answers h (.inr hp)
  | done => exact ⟨_, fbMicro_done hp⟩
  | mark0 | mark1 | dig2 | dig1 | dig0 | crcHi | crcLo | term => exact ⟨_, fbMicro_append hp rfl⟩

/-- A row of the active unit answers a next state, unless a byte waits for which the line has no room
(R165). -/
theorem unitMicro_answers {s : State} (h : MachineInv s) (hb : s.io.busy = true) :
    (∃ t, unitMicro s = .next t) ∨ unitMicro s = .refused .lineCapExceeded := by
  unfold unitMicro
  split_ifs with hl hf
  · exact (lrMicro_next_or_full hl fun hp => (h.reader.waiting hp).1).imp_right And.right
  · exact .inl (fbMicro_answers h hf)
  · have hc : s.ce.phase ≠ .idle := (h.units.active hb).resolve_right (not_or.mpr ⟨hf, hl⟩)
    exact .inl (crcMicro_answers h (.inl hc))

theorem blockStep_ne_fault {s : State} (h : MachineInv s) (f : Fault) : blockStep s ≠ .fault f := by
  cases hb : s.io.busy with
  | true =>
    rw [blockStep_busy hb]
    rcases unitMicro_answers h hb with ⟨t, ht⟩ | hfull
    · simp [ht]
    · simp [hfull]
  | false => simp [blockStep_waits hb]

theorem step_ne_fault {s : State} (h : MachineInv s) (f : Fault) : step s ≠ .fault f := by
  cases hc : s.io.cmd with
  | some w =>
    rw [step_pending s w hc]
    exact exec_ne_fault _ _ f
  | none =>
    cases hd : hostDue s with
    | some p =>
      rw [step_hostDue hc hd]
      exact hostAct_ne_fault _ _ f
    | none =>
      rw [step_noneDue hc hd]
      exact blockStep_ne_fault (inv_withQueue (inv_envMove h) _) f

/-- Settles O49: a step is a command, a host move or a row of the active unit, and the reader's rows are
refused for want of room only. -/
theorem noStepFaults : Obligations.NoStepFaults := by
  refine fun s h => ⟨step_ne_fault h, fun hu hb => ?_⟩
  rw [step_busy s hu hb]
  rcases unitMicro_answers (inv_envMove h) hb with ⟨t, ht⟩ | hfull
  · simp [ht]
  · simp [hfull]

end Sys2Proof.Machine

/-! ## 70_reset_and_hazards.md: reset

`resetBlock` gives the block's registers the values of `State.reset`, whatever they held, and keeps what
is not the block's; what the reset state holds is O46, `resetStateHoldsNoResult`. -/

namespace Sys2Proof.Machine

/-- The host's reset is never refused, not even while an operation runs (R230). -/
theorem hostAct_reset (s : State) : hostAct .reset s = .next (resetBlock s) := rfl

@[simp] theorem frameLen_resetBlock (s : State) : frameLen (resetBlock s) = 0 := rfl
@[simp] theorem lineLen_resetBlock (s : State) : lineLen (resetBlock s) = 0 := rfl

/-- Settles O45: the phases, `BUSY`, `DONE`, `CMD` and `IBUF` are those of the reset state, and what is
outside the block stays. -/
theorem resetAbandonsTheOperation : Obligations.ResetAbandonsTheOperation := by
  intro s
  obtain ⟨hce, hfb, hlr, hcmd, hbusy, hdone, hibuf, _⟩ := resetStateHoldsNoResult
  have hpieces : State.reset.io.ibufWritten = [] := rfl
  have hcrc : State.reset.io.crcWritten = false := rfl
  have hsuccess : State.reset.io.successWritten = false := rfl
  exact ⟨resetBlock s, hostAct_reset s, hce, hfb, hlr, hbusy, hdone, hcmd, hibuf, hpieces,
    frameLen_resetBlock s, lineLen_resetBlock s, hcrc, hsuccess,
    resetBlock_world s, resetBlock_host s, resetBlock_params s⟩

end Sys2Proof.Machine
